-- ==== Sys2Proof/Word.lean ====
section
/-! DEFINITION. The two word types of the block: the 16-bit word of the command port (30_encoding R60) and the 8-bit
value of a glyph, a character code and a chain stage (00_scope R10). Both are bit vectors: the spec slices them. -/

namespace Sys2Proof

/-- A word on port `cmd`: a command word or a payload word, `w[15:0]` (R60). -/
abbrev Word := BitVec 16

/-- An 8-bit value: a glyph, a slot value, a character code (R10, R34, R36). -/
abbrev Byte := BitVec 8

end Sys2Proof
end

