-- ==== Sys2Proof/Config.lean ====
section
/-! DEFINITION. The implementation parameters of 00_scope section 4 and the free values of the model. An OPEN parameter
is a field of `Params`, which the machine takes as an argument (it is carried in `State.cfg`, which no step writes); its
value on the real hardware is an opaque constant, so that no proof can rest on one. -/

namespace Sys2Proof.Config

/-- `POINT_VARIANT` (R7): how RENDER treats the character '.' inside a frame. -/
inductive PointVariant
  /-- '.' is a slot of its own (R84). -/
  | aStandalone
  /-- '.' is folded onto the previous character's slot (R85). -/
  | bFoldPrev
  /-- '.' marks the next non-point character (R86). -/
  | bFoldNext
deriving DecidableEq, Repr, Inhabited

/-- The parameters of the hardware, fixed for its life (R6 to R8, R152). `NDIGITS` (R9) is the length of the chain. -/
structure Params where
  /-- `GLYPH` as the glyph ROM holds it: entry i is the glyph of the character with ROM index i (R6, R38). -/
  glyph : Vector Byte 16
  /-- `POINT_VARIANT` (R7). -/
  pointVariant : PointVariant
  /-- `OE_ACTIVE_LOW` (R8): the pad is driven to 0 to make the display visible. -/
  oeActiveLow : Bool
  /-- The platform premise of R152 (D31): a released output-enable pad is held at its blanking level. -/
  platformHoldsBlank : Bool
deriving DecidableEq, Repr

/-- The hardware's glyph table. OPEN (R6): no value of it is known. -/
opaque glyph : Vector Byte 16

/-- The hardware's decimal-point protocol. OPEN (R7). -/
opaque pointVariant : PointVariant

/-- One less than the hardware's number of chain stages, so that `NDIGITS` is at least 1. OPEN (R9). -/
opaque ndigitsPred : Nat

/-- `NDIGITS` of the hardware (R9). -/
def ndigits : Nat := ndigitsPred + 1

/-- Whether the hardware's platform holds a released output-enable pad at its blanking level. OPEN (R152, D31). -/
opaque platformHoldsBlank : Bool

/-- The parameters of the hardware: the OPEN ones opaque, `OE_ACTIVE_LOW` at its default (R8). -/
def params : Params :=
  { glyph := glyph, pointVariant := pointVariant, oeActiveLow := true, platformHoldsBlank := platformHoldsBlank }

/-- FREE VALUE (R152, V4): what a stage of the chain holds after edges on released lines, by draw number and stage. -/
opaque freeStage : Nat → Nat → Byte

/-- FREE VALUE (R152, V4): what a digit shows while the output-enable pad is released, by draw number and digit. -/
opaque freeSegments : Nat → Nat → Byte

/-- `GLYPH_REF` (R37), in ROM order. For the concrete vectors of 95_test_vectors only: nothing of the machine uses it. -/
def glyphRef : Vector Byte 16 :=
  #v[0x00, 0x77, 0x06, 0xB3, 0x97, 0xC6, 0xD5, 0xF5, 0x07, 0xF7, 0xD7, 0x08, 0xE3, 0xE7, 0xF4, 0x71]

end Sys2Proof.Config
end

