-- ==== Sys2Proof/Syntax.lean ====
section
/-! DEFINITION. The commands of the block: one constructor of `Instr` per row of spec/opcode_table.json, at the level of
the abstract operations (RENDER with its whole frame, R83), and `Header`, what one command word alone says. -/

namespace Sys2Proof

/-- What a legal command word says (R61, R62, R64, R66). -/
inductive Header
  /-- Format S: `P = w[8]`, `CHAR = w[7:0]` (R61). -/
  | sendDigit (point : Bool) (char : Byte)
  /-- Format R: `LEN = w[7:0]`, the number of payload words that follow (R62). -/
  | render (len : Byte)
  /-- Format Z, `0x3000` (R64). -/
  | enable
  /-- Format Z, `0x4000` (R64). -/
  | disable
  /-- Format Z, `0x5000` (R64). -/
  | shutdown
deriving DecidableEq, Repr

/-- The instructions, one constructor per row of the opcode table (R65). -/
inductive Instr
  /-- SEND_DIGIT `CHAR`, `P` (R75). -/
  | sendDigit (point : Bool) (char : Byte)
  /-- RENDER of a frame, given as its payload words in order (R63, R83). -/
  | render (frame : List Word)
  /-- ENABLE (R94). -/
  | enable
  /-- DISABLE (R95). -/
  | disable
  /-- SHUTDOWN (R96). -/
  | shutdown
  /-- CHARW: one payload word, whatever its bits (R63). -/
  | charw (word : Word)
deriving DecidableEq, Repr

/-- The header of a command (none for a payload word, which is not a command: R63). -/
def Instr.header : Instr → Option Header
  | .sendDigit p c => some (.sendDigit p c)
  | .render frame => some (.render (BitVec.ofNat 8 frame.length))
  | .enable => some .enable
  | .disable => some .disable
  | .shutdown => some .shutdown
  | .charw _ => none

/-- The length of an instruction in words: `1 + LEN` for RENDER, one for the others (R68). -/
def Instr.wordCount : Instr → Nat
  | .sendDigit _ _ => 1
  | .render frame => 1 + frame.length
  | .enable => 1
  | .disable => 1
  | .shutdown => 1
  | .charw _ => 1

end Sys2Proof
end

