-- ==== Sys2Proof/Machine/State.lean ====
section
/-! DEFINITION. The state of the system: everything spec/ gives the block (10_state), the chain it feeds (20_memory R47),
the host's Stopwatch (45_host-stopwatch R101), and, as plain data, what the world outside does next. The reasons a step
can stop. The state after reset. -/

namespace Sys2Proof.Machine

/-- The four output lines (R14). -/
inductive Line
  | sck
  | data
  | latch
  | vis
deriving DecidableEq, Repr

/-- One `drive(line, v)` as `EVENTS` records it (R24). -/
structure Event where
  line : Line
  value : Bool
deriving DecidableEq, Repr

/-- The phases of the sequencer (R20). -/
inductive Phase
  /-- Between commands. -/
  | idle
  /-- Resolve the character of a slot; in a RENDER with payload words still to come, wait for the next one (R72). -/
  | lookup
  /-- The first write of a bit cell. -/
  | clkLow
  /-- The second write of a bit cell. -/
  | setData
  /-- The third write of a bit cell. -/
  | clkHigh
  /-- The first write of the latch pulse. -/
  | latchHi
  /-- The second write of the latch pulse. -/
  | latchLo
  /-- The one write of ENABLE, DISABLE or SHUTDOWN. -/
  | oeWrite
  /-- A command has just completed: the one-cycle `done` pulse (R73). The block is not busy; the next boundary is IDLE. -/
  | done
deriving DecidableEq, Repr

/-- The host's Stopwatch (R101). A timestamp is a number of seconds (R111). -/
structure Stopwatch where
  startInstant : Rat
  elapsedMinutes : Nat
  elapsedSeconds : Fin 60
  indicator : Bool
deriving DecidableEq, Repr

/-- What the host's thread does next (R100, R115). -/
inductive HostOp
  /-- Construct the Stopwatch at a time (R102). -/
  | construct (now : Rat)
  /-- The Stopwatch's `reset(now)` (R105). -/
  | reset (now : Rat)
  /-- The Stopwatch's `update(now)` (R103). -/
  | update (now : Rat)
  /-- Take the Stopwatch's `render()` and issue RENDER of that frame (R106, R100). -/
  | renderFrame
  /-- One pass of the loop: the start/reset signal fired or not, and the time (R100, R113). -/
  | loop (fired : Bool) (now : Rat)
  /-- Issue any words on the command port (R115). -/
  | issue (words : List Word)
  /-- Leave the loop: issue SHUTDOWN (R131). -/
  | exit
deriving DecidableEq, Repr

/-- What a reset of the block draws: everything R28 leaves unspecified (R11, R16, R19, R28). -/
structure ResetDraws where
  acquireOk : Bool
  resetVis : Bool
  buf : Byte
  hold : Byte
deriving DecidableEq, Repr

/-- What the world outside the block does at one boundary (R13, R32). -/
inductive Input
  /-- One cycle of `clk`, one micro-step (R156); `cmdValid` says whether the host presents its next word (R72). -/
  | clock (cmdValid : Bool)
  /-- `cancel` is 1 (R124). -/
  | cancel
  /-- `rst` (R141, R142). -/
  | reset (draws : ResetDraws)
  /-- Power-up: a reset with the chain's power-up contents drawn as well (R48, R141). -/
  | powerUp (draws : ResetDraws) (shift store : List Byte)
  /-- The host's thread runs. -/
  | host (op : HostOp)
deriving DecidableEq, Repr

/-- The state. -/
structure State where
  /-- `SCK` (R14). -/
  sck : Bool
  /-- `DATA` (R14). -/
  data : Bool
  /-- `LATCH` (R14). -/
  latch : Bool
  /-- `VIS` (R14, R16). -/
  vis : Bool
  /-- `DRIVEN` (R17). -/
  driven : Bool
  /-- `STATUS` (R18). -/
  status : BitVec 3
  /-- `BUSY` (R27). -/
  busy : Bool
  /-- The command in progress, none between commands (DEDUCED, log 12). -/
  cmd : Option Header
  /-- `SLOT` (R20). -/
  slot : Nat
  /-- `BIT` (R20). -/
  bit : Fin 8
  /-- `PHASE` (R20). -/
  phase : Phase
  /-- `BUF` (R19). -/
  buf : Byte
  /-- `REMAIN` (R23). -/
  remain : Byte
  /-- `HOLD` (R21, R23). -/
  hold : Byte
  /-- `HOLDV` (R21, R23). -/
  holdv : Bool
  /-- `PENDP` (R21, R23). -/
  pendp : Bool
  /-- `DISCARD` (R23). -/
  discard : Bool
  /-- `cancel` has been acted on since reset (R124). -/
  cancelled : Bool
  /-- `EVENTS`, oldest first (R24). -/
  events : List Event
  /-- The chain's `SHIFT`, one entry per stage, the stage nearest the serial input first (R30, R47). -/
  shift : List Byte
  /-- The chain's `STORE`, in the same order (R30, R47). -/
  store : List Byte
  /-- The words the host has to present on `cmd`, the next one first (R32, R72). -/
  words : List Word
  /-- What the world outside does at the next boundaries, the next one first (DESIGN CHOICE, log 2). -/
  inputs : List Input
  /-- The host's Stopwatch (R101). -/
  stopwatch : Stopwatch
  /-- The model's own counter of free values (log 10). -/
  draws : Nat
  /-- The parameters the model takes as an argument; no step writes them (R6 to R8, log 3). -/
  cfg : Config.Params
deriving DecidableEq, Repr

/-- Why the machine stops. No exception of the spec does: each is a completion code in `STATUS` (R117, R129). -/
inductive Fault
  /-- Raised by `microStep` on a sequencer position that belongs to no command of R20 (a bit cell in no SEND_DIGIT or
  RENDER, a LOOKUP with nothing to look up). Safe: no state that keeps `State.Inv` has such a position. -/
  | strayPosition
deriving DecidableEq, Repr

/-- What has no meaning. -/
inductive Refusal
  /-- An instruction that has no meaning yet; raised by an arm of `exec`. Safe. No arm raises it. -/
  | notModelled (mnemonic : String)
  /-- A word executed while the block cannot take it; raised by the meanings of all commands and of CHARW. Safe: the
  handshake does not take the word (R151, V9), and `step` never executes one then. -/
  | busy
  /-- The host's `render()` at 100 minutes or more without a policy; raised by the host's operations. Safe: the spec
  refuses there (R110, U4). -/
  | minutesOverflow
deriving DecidableEq, Repr

/-- `NDIGITS` (R9, R47). -/
def State.ndigits (s : State) : Nat := s.shift.length

/-- The machine right after power-up, at the values of R28 and R102; each draw has the value its log entry names
(log 4 to 8, 23): the lines acquired, the display blank, the chain all zero. SLOT and BIT at IDLE are 0 (DESIGN CHOICE,
log 32). -/
def State.reset : State :=
  { sck := false, data := false, latch := false, vis := false
    driven := true, status := 0, busy := false
    cmd := none, slot := 0, bit := 0, phase := .idle
    buf := 0, remain := 0, hold := 0, holdv := false, pendp := false, discard := false
    cancelled := false
    events := []
    shift := List.replicate Config.ndigits 0
    store := List.replicate Config.ndigits 0
    words := []
    inputs := []
    stopwatch := { startInstant := 0, elapsedMinutes := 0, elapsedSeconds := 0, indicator := false }
    draws := 0
    cfg := Config.params }

end Sys2Proof.Machine
end

