-- ==== Sys2Proof/Machine/Flags.lean ====
section
/-! DEFINITION. The block has no flags and no condition codes (10_state R21). What it reports is the completion code in
`STATUS` (60_exceptions R117); its numbers are here. -/

namespace Sys2Proof.Machine

/-- The completion codes (R117); 5, 6 and 7 are never written. -/
inductive Code
  | ok
  | lookupError
  | resourceError
  | illegalCommand
  | aborted
deriving DecidableEq, Repr

/-- The value of `STATUS` for a code (R117). -/
def Code.bits : Code → BitVec 3
  | .ok => 0
  | .lookupError => 1
  | .resourceError => 2
  | .illegalCommand => 3
  | .aborted => 4

end Sys2Proof.Machine
end

