-- ==== Sys2Proof/Machine/Operands.lean ====
section
/-! DEFINITION. The operands: character codes and the glyph lookup (20_memory R34, R38, R39), the character a payload
word names (30_encoding R63), point injection (40_send-digit R76) and the three slot functions (41_render R84 to R86). -/

namespace Sys2Proof.Machine

/-- The code of '.', the one character RENDER inspects (R34, R85, R86). -/
def pointChar : Byte := 0x2E#8

/-- `idx(c)`: the ROM index of a character code, none for the 240 codes that name no supported character (R39). -/
def charIndex (c : Byte) : Option (Fin 16) :=
  if c = 0x20#8 then some 0
  else if 0x30#8 ≤ c ∧ c ≤ 0x39#8 then some (Fin.ofNat 16 (c.toNat - 0x30 + 1))
  else if c = 0x2E#8 then some 11
  else if c = 0x50#8 then some 12
  else if c = 0x41#8 then some 13
  else if c = 0x42#8 then some 14
  else if c = 0x43#8 then some 15
  else none

/-- `MemRead(GROM + i, 1)`: entry i of the glyph ROM (R38). -/
def romRead (p : Config.Params) (i : Fin 16) : Byte := p.glyph[i]

/-- `lookup(c)`: the glyph of a supported character; none stands for LookupError (R39). -/
def lookupGlyph (p : Config.Params) (c : Byte) : Option Byte := (charIndex c).map (romRead p)

/-- The mask of the decimal-point segment, index 3 (R36, R76). -/
def pointMask : Byte := 0x08#8

/-- Point injection: `g | (zext_8(P) << 3)` (R66, R76). -/
def slotValue (point : Bool) (g : Byte) : Byte := g ||| (if point then pointMask else 0#8)

/-- The value a slot puts into `BUF`, none for LookupError (R75, R83). -/
def resolveSlot (p : Config.Params) (c : Byte) (point : Bool) : Option Byte :=
  (lookupGlyph p c).map (slotValue point)

/-- The unsupported code that stands for a payload word whose upper byte is not zero (R63, log 16). -/
def unsupportedChar : Byte := 0xFF#8

/-- The character a payload word names: its low byte, or no supported character if the upper byte is not zero (R63). -/
def payloadChar (w : Word) : Byte :=
  if w.extractLsb' 8 8 = 0#8 then w.extractLsb' 0 8 else unsupportedChar

/-- A slot before its lookup: a character and whether the point is forced (R83). -/
abbrev Slot := Byte × Bool

/-- `slots_A`: every character is a slot of its own (R84). -/
def slotsA (frame : List Byte) : List Slot := frame.map fun c => (c, false)

/-- `slots_PREV`: a character directly followed by '.' takes the point and consumes it (R85). -/
def slotsPrev : List Byte → List Slot
  | [] => []
  | [c] => [(c, false)]
  | c :: d :: rest => if d = pointChar then (c, true) :: slotsPrev rest else (c, false) :: slotsPrev (d :: rest)

/-- `slots_NEXT` from a pending flag: a '.' sets it, the next other character takes and clears it (R86). -/
def slotsNextFrom (p : Bool) : List Byte → List Slot
  | [] => []
  | c :: rest => if c = pointChar then slotsNextFrom true rest else (c, p) :: slotsNextFrom false rest

/-- `slots_NEXT` (R86). -/
def slotsNext (frame : List Byte) : List Slot := slotsNextFrom false frame

/-- The slot function `POINT_VARIANT` selects (R83). -/
def slotsOf (v : Config.PointVariant) (frame : List Byte) : List Slot :=
  match v with
  | .aStandalone => slotsA frame
  | .bFoldPrev => slotsPrev frame
  | .bFoldNext => slotsNext frame

end Sys2Proof.Machine
end

