-- ==== Sys2Proof/Machine/Ops.lean ====
section
/-! DEFINITION. The shared operations: the chain's reaction, `drive`, bit cells, digit slots and the latch pulse; taking
an exception or completing (one operation, 60_exceptions R129: nothing is saved and there is no return, R132); release,
cancellation, reset; the drift of a released chain. -/

namespace Sys2Proof.Machine

/-! ### The chain (20_memory) -/

/-- One capture: every bit moves one place away from the serial input and `d` enters at bit 0 of the nearest stage; the
bit that leaves the farthest stage is lost (R49). -/
def shiftIn (d : Bool) : List Byte → List Byte
  | [] => []
  | b :: rest => BitVec.concat (b.setWidth 7) d :: shiftIn b.msb rest

/-- The chain register as a number, bit 0 nearest the serial input (R47). -/
def chainValue : List Byte → Nat
  | [] => 0
  | b :: rest => b.toNat + 256 * chainValue rest

/-! ### The lines (10_state R14, 00_scope section 6) -/

/-- The level a line register holds (R14). -/
def State.level (s : State) : Line → Bool
  | .sck => s.sck
  | .data => s.data
  | .latch => s.latch
  | .vis => s.vis

/-- `drive(line, v)`: the register takes the level, the event is recorded, and the chain, while the lines are driven,
reacts to a rising edge of SCK or LATCH (R24, R47, R49, R50). -/
def State.drive (l : Line) (v : Bool) (s : State) : State :=
  match l with
  | .sck =>
    { s with
      sck := v
      events := s.events ++ [⟨.sck, v⟩]
      shift := if s.driven && (v && !s.sck) then shiftIn s.data s.shift else s.shift }
  | .data => { s with data := v, events := s.events ++ [⟨.data, v⟩] }
  | .latch =>
    { s with
      latch := v
      events := s.events ++ [⟨.latch, v⟩]
      store := if s.driven && (v && !s.latch) then s.shift else s.store }
  | .vis => { s with vis := v, events := s.events ++ [⟨.vis, v⟩] }

/-- A bit cell: clock low, data, clock high (R55). -/
def State.bitCell (s : State) (b : Bool) : State :=
  ((s.drive .sck false).drive .data b).drive .sck true

/-- The bits of a slot in the order of transmission, bit 7 first (R40, R56). -/
def slotBits (v : Byte) : List Bool := [7, 6, 5, 4, 3, 2, 1, 0].map v.getLsbD

/-- A digit slot: `BUF` takes the value and its 8 bits are sent (R56, R77). -/
def State.shiftOut (v : Byte) (s : State) : State := (slotBits v).foldl State.bitCell { s with buf := v }

/-- The latch pulse: assert, then deassert (R58). -/
def State.latchPulse (s : State) : State := (s.drive .latch true).drive .latch false

/-! ### Completion and exceptions (60_exceptions R117, R129; 30_encoding R73) -/

/-- The end of a command, normal or by an exception: `STATUS` takes the code, `done` is pulsed, the block is idle with its
transient registers cleared. Nothing is saved and control goes nowhere (R73, R129). -/
def State.complete (c : Code) (s : State) : State :=
  { s with
    status := c.bits, busy := false, cmd := none, slot := 0, bit := 0, phase := .done
    remain := 0, holdv := false, pendp := false, discard := false }

/-- The end of a RENDER whose lines are driven: as `complete`, with `HOLD`, which has no meaning after it, cleared
(R21, log 14). -/
def State.endRender (c : Code) (s : State) : State := ({ s with hold := 0 } : State).complete c

/-- An illegal word in command position: no `drive`, ILLEGAL_COMMAND (R67, R120). -/
def State.illegal (s : State) : State := s.complete .illegalCommand

/-! ### Release, cancellation, reset -/

/-- The micro-steps of SHUTDOWN: if the lines are driven, blank the display and then release them (R96). -/
def State.release (s : State) : State :=
  if s.driven then { s.drive .vis false with driven := false } else s

/-- The payload words of the command in progress are not presented any more: after a cancellation or a reset they are
never consumed (R126, R142, log 18). -/
def State.withdrawPayload (s : State) : State := { s with words := s.words.drop s.remain.toNat }

/-- Taking `cancel`: the command in progress is abandoned, the lines are shut down, `STATUS` is ABORTED; a second
`cancel` has no further effect (R126). -/
def State.takeCancel (s : State) : State :=
  if s.cancelled then s
  else { s.withdrawPayload.release.complete .aborted with cancelled := true }

/-- Reset: every register takes the value of R28, with no `drive`; the chain is not touched (R28, R142). SLOT and BIT, for
which the spec gives no value beside the position IDLE, take 0 (DESIGN CHOICE, log 32). -/
def State.applyReset (d : ResetDraws) (s : State) : State :=
  { s.withdrawPayload with
    sck := false, data := false, latch := false, vis := d.resetVis
    driven := d.acquireOk
    status := if d.acquireOk then Code.ok.bits else Code.resourceError.bits
    busy := false, cmd := none, slot := 0, bit := 0, phase := .idle
    buf := d.buf, remain := 0, hold := d.hold, holdv := false, pendp := false, discard := false
    cancelled := false
    events := [] }

/-- A list of stages cut or filled with zeros to a number of stages. -/
def stages (n : Nat) (l : List Byte) : List Byte := (List.range n).map fun k => l.getD k 0

/-- Power-up: the reset, and the chain holds the contents drawn (R48, R141). -/
def State.powerUp (d : ResetDraws) (shift store : List Byte) (s : State) : State :=
  { s.applyReset d with shift := stages s.ndigits shift, store := stages s.ndigits store }

/-! ### What happens at every boundary -/

/-- The `done` pulse lasts one cycle: after it the position is IDLE (R20, R73). -/
def State.endPulse (s : State) : State := if s.phase = .done then { s with phase := .idle } else s

/-- The contents of a chain behind released lines: free values (R152, V4). -/
def freeChain (draw n : Nat) : List Byte := (List.range n).map (Config.freeStage draw)

/-- While the lines are released the chain may see any edges: at each boundary `SHIFT` and `STORE` are any values
(R47, R152). -/
def State.drift (s : State) : State :=
  if s.driven then s
  else
    { s with
      shift := freeChain s.draws s.shift.length
      store := freeChain (s.draws + 1) s.store.length
      draws := s.draws + 2 }

/-- What a micro-step boundary does before anything else. -/
def State.boundary (s : State) : State := s.endPulse.drift

end Sys2Proof.Machine
end

