-- ==== Sys2Proof/Machine/SendDigit.lean ====
section
/-! DEFINITION. SEND_DIGIT (40_send-digit). -/

namespace Sys2Proof.Machine

/-- A command runs only when the block is idle: the handshake takes no command word while it is busy (R151, V9). -/
def State.whenIdle (s : State) (t : State) : Host.Outcome State Fault Refusal :=
  if s.busy then .refused .busy else .next t

/-- The pseudocode of SEND_DIGIT: the `DRIVEN` test, the lookup, the slot (R75, R80). -/
def State.sendDigit (point : Bool) (char : Byte) (s : State) : State :=
  if s.driven then
    match resolveSlot s.cfg char point with
    | none => s.complete .lookupError
    | some v => (s.shiftOut v).complete .ok
  else s.complete .resourceError

/-- SEND_DIGIT (R75). -/
def execSendDigit (point : Bool) (char : Byte) (s : State) : Host.Outcome State Fault Refusal :=
  s.whenIdle (s.sendDigit point char)

end Sys2Proof.Machine
end

