-- ==== Sys2Proof/Machine/OutputControl.lean ====
section
/-! DEFINITION. ENABLE, DISABLE and SHUTDOWN (42_output-control). -/

namespace Sys2Proof.Machine

/-- A visibility change by ENABLE or DISABLE: the `DRIVEN` test, then one write of VIS (R59, R94, R95). -/
def State.setVisible (v : Bool) (s : State) : State :=
  if s.driven then (s.drive .vis v).complete .ok else s.complete .resourceError

/-- The pseudocode of SHUTDOWN: it succeeds also with the lines released (R96, R97). -/
def State.shutdown (s : State) : State := s.release.complete .ok

/-- ENABLE (R94). -/
def execEnable (s : State) : Host.Outcome State Fault Refusal := s.whenIdle (s.setVisible true)

/-- DISABLE (R95). -/
def execDisable (s : State) : Host.Outcome State Fault Refusal := s.whenIdle (s.setVisible false)

/-- SHUTDOWN (R96). -/
def execShutdown (s : State) : Host.Outcome State Fault Refusal := s.whenIdle s.shutdown

end Sys2Proof.Machine
end

