-- ==== Sys2Proof/Machine/Payload.lean ====
section
/-! DEFINITION. CHARW, a payload word of RENDER as one transfer on the command port: the streaming forms of the slot
functions (41_render R92, 10_state R23). -/

namespace Sys2Proof.Machine

/-- The block is inside a RENDER and waits for its next payload word (R63, R72). -/
def State.awaiting (s : State) : Bool :=
  s.busy && s.phase == .lookup && s.remain != 0 &&
    match s.cmd with
    | some (.render _) => true
    | _ => false

/-- The completion code of a RENDER that drops its payload: released lines, else a failed lookup (R88, R92). -/
def State.failure (s : State) : State :=
  if s.driven then s.endRender .lookupError else s.complete .resourceError

/-- Where a RENDER goes when no slot is being sent: to the next payload word or the held character, or, when neither is
left, to the latch pulse (R20, R92). -/
def State.nextSlot (s : State) : State :=
  if s.remain = 0 ∧ s.holdv = false then { s with phase := .latchHi } else { s with phase := .lookup }

/-- The LOOKUP of one slot of a RENDER: `BUF` is loaded and the first bit cell begins, or the rest of the payload is to be
dropped (R83, R88). -/
def State.beginSlot (c : Byte) (point : Bool) (s : State) : State :=
  match resolveSlot s.cfg c point with
  | some v => { s with buf := v, bit := 7, phase := .clkLow, pendp := false }
  | none => if s.remain = 0 then s.failure else { s with discard := true }

/-- A payload character arrives (`REMAIN` already counted down): it is dropped, or `POINT_VARIANT` says whether it is a
slot, is held, or is folded (R84, R85, R86, R92). -/
def State.payloadArrives (c : Byte) (s : State) : State :=
  if s.discard then (if s.remain = 0 then s.failure else s)
  else
    match s.cfg.pointVariant with
    | .aStandalone => s.beginSlot c false
    | .bFoldPrev =>
      if s.holdv then
        if c = pointChar then ({ s with holdv := false } : State).beginSlot s.hold true
        else ({ s with hold := c } : State).beginSlot s.hold false
      else ({ s with hold := c, holdv := true } : State).nextSlot
    | .bFoldNext =>
      if c = pointChar then ({ s with pendp := true } : State).nextSlot
      else s.beginSlot c s.pendp

/-- CHARW: in payload position the next character of the frame; the block takes no word while it is sending; in command
position a word with opcode 0000 is illegal (R63, R67, R72). -/
def execCharw (w : Word) (s : State) : Host.Outcome State Fault Refusal :=
  if s.awaiting then .next (({ s with remain := s.remain - 1 } : State).payloadArrives (payloadChar w))
  else s.whenIdle s.illegal

end Sys2Proof.Machine
end

