-- ==== Sys2Proof/Machine/Render.lean ====
section
/-! DEFINITION. RENDER at the operation level (41_render). -/

namespace Sys2Proof.Machine

/-- The loop of RENDER over its slots: each is looked up when its turn comes; the first failing lookup ends the command
with no latch pulse; after the last slot comes the latch pulse (R83, R87, R88). -/
def State.sendSlots (s : State) : List Slot → State
  | [] => s.latchPulse.endRender .ok
  | (c, p) :: rest =>
    match resolveSlot s.cfg c p with
    | none => s.endRender .lookupError
    | some v => (s.shiftOut v).sendSlots rest

/-- The pseudocode of RENDER (R83). The frame is given as its payload words (R63); they are consumed in every case (R68). -/
def State.render (frame : List Word) (s : State) : State :=
  if s.driven then s.sendSlots (slotsOf s.cfg.pointVariant (frame.map payloadChar))
  else s.complete .resourceError

/-- RENDER (R83). -/
def execRender (frame : List Word) (s : State) : Host.Outcome State Fault Refusal := s.whenIdle (s.render frame)

end Sys2Proof.Machine
end

