-- ==== Sys2Proof/Machine/Dispatch.lean ====
section
/-! DEFINITION. The meaning of every instruction, one arm each. -/

namespace Sys2Proof.Machine

def exec (i : Instr) (s : State) : Host.Outcome State Fault Refusal :=
  match i with
  | .sendDigit point char => Sys2Proof.Machine.execSendDigit point char s
  | .render frame => Sys2Proof.Machine.execRender frame s
  | .enable => Sys2Proof.Machine.execEnable s
  | .disable => Sys2Proof.Machine.execDisable s
  | .shutdown => Sys2Proof.Machine.execShutdown s
  | .charw word => Sys2Proof.Machine.execCharw word s

end Sys2Proof.Machine
end

