-- ==== Sys2Proof/WellFormed.lean ====
section
/-! DEFINITION. Which terms of `Instr` the encoding can express: all but a RENDER of more than `MAX_FRAME` characters
(R10, R62, R69). Every operand of every other constructor has exactly the width of its field. -/

namespace Sys2Proof

/-- `MAX_FRAME`, the width of `LEN` (R10, R69). -/
def maxFrame : Nat := 255

/-- The encoding can express the instruction. -/
def Instr.wellFormed : Instr → Bool
  | .sendDigit _ _ => true
  | .render frame => decide (frame.length ≤ maxFrame)
  | .enable => true
  | .disable => true
  | .shutdown => true
  | .charw _ => true

end Sys2Proof
end

