-- ==== Sys2Proof/Decode.lean ====
section
/-! DEFINITION. The decoder of 30_encoding, total on any words and rejecting by name, and after it the encoder. A word
is decoded by its position: `decode` reads a command at the head of a list of words (R74), `decodePayload` a word in
payload position (R63). -/

namespace Sys2Proof

/-- Why a list of words gives no command. The first three are the illegal words of R67. -/
inductive Reject
  /-- There is no word. -/
  | noWord
  /-- Opcode 0000 in command position (R67). -/
  | payloadOpcode
  /-- Opcode 0110 to 1111 (R67). -/
  | reservedOpcode
  /-- A reserved field that is not zero (R67). -/
  | reservedBits
  /-- A legal RENDER header with fewer than `LEN` words after it: the block would wait (R72). -/
  | missingPayload
deriving DecidableEq, Repr

/-- `w[15:12]` (R60). -/
def opcode (w : Word) : BitVec 4 := w.extractLsb' 12 4

/-- `w[7:0]`: CHAR or LEN (R66). -/
def lowByte (w : Word) : Byte := w.extractLsb' 0 8

/-- `w[15:8]`. -/
def highByte (w : Word) : Byte := w.extractLsb' 8 8

/-- What one word in command position says (R61, R62, R64, R67). -/
def decodeHeader (w : Word) : Except Reject Header :=
  if opcode w = 0b0001#4 then
    if w.extractLsb' 9 3 = 0#3 then .ok (.sendDigit (w.getLsbD 8) (lowByte w)) else .error .reservedBits
  else if opcode w = 0b0010#4 then
    if w.extractLsb' 8 4 = 0#4 then .ok (.render (lowByte w)) else .error .reservedBits
  else if opcode w = 0b0011#4 then
    if w.extractLsb' 0 12 = 0#12 then .ok .enable else .error .reservedBits
  else if opcode w = 0b0100#4 then
    if w.extractLsb' 0 12 = 0#12 then .ok .disable else .error .reservedBits
  else if opcode w = 0b0101#4 then
    if w.extractLsb' 0 12 = 0#12 then .ok .shutdown else .error .reservedBits
  else if opcode w = 0b0000#4 then .error .payloadOpcode
  else .error .reservedOpcode

/-- The words a header takes after it (R68). -/
def withPayload (h : Header) (rest : List Word) : Except Reject (Instr × List Word) :=
  match h with
  | .sendDigit p c => .ok (.sendDigit p c, rest)
  | .render len =>
    if len.toNat ≤ rest.length then .ok (.render (rest.take len.toNat), rest.drop len.toNat)
    else .error .missingPayload
  | .enable => .ok (.enable, rest)
  | .disable => .ok (.disable, rest)
  | .shutdown => .ok (.shutdown, rest)

/-- The command at the head of a list of words, with the words after it (R68, R74). -/
def decode (words : List Word) : Except Reject (Instr × List Word) :=
  match words with
  | [] => .error .noWord
  | w :: rest =>
    match decodeHeader w with
    | .error e => .error e
    | .ok h => withPayload h rest

/-- A word in payload position is payload, whatever its bits (R63). -/
def decodePayload (w : Word) : Instr := .charw w

/-- Format W as the opcode table gives it: match `0x0000`, mask `0xFF00` (R63). -/
def isFormatW (w : Word) : Bool := highByte w == 0#8

/-! ### The encoder -/

/-- Format S: match `0x1000`, `P` in bit 8, `CHAR` in bits 7..0 (R61). -/
def encodeS (p : Bool) (c : Byte) : Word := 0x1000 ||| (if p then 0x0100 else 0x0000) ||| c.setWidth 16

/-- Format R: `0x2000 | LEN` (R62, R70). -/
def encodeR (len : Byte) : Word := 0x2000 ||| len.setWidth 16

/-- The word of a header; format Z is the word itself (R64). -/
def encodeHeader : Header → Word
  | .sendDigit p c => encodeS p c
  | .render len => encodeR len
  | .enable => 0x3000
  | .disable => 0x4000
  | .shutdown => 0x5000

/-- The words of an instruction: a header, and for RENDER one payload word per character (R60, R70). -/
def encode : Instr → List Word
  | .sendDigit p c => [encodeHeader (.sendDigit p c)]
  | .render frame => encodeHeader (.render (BitVec.ofNat 8 frame.length)) :: frame
  | .enable => [encodeHeader .enable]
  | .disable => [encodeHeader .disable]
  | .shutdown => [encodeHeader .shutdown]
  | .charw w => [w]

/-! ### Words of the opcode table -/

/-- The words of the instruction whose bits are `w`, the first word in bits 15..0: `1 + LEN` words for a RENDER header,
one word otherwise; the bits above `nbits` are zero. -/
def tableWords (nbits w : Nat) : List Word :=
  let v := w % 2 ^ nbits
  let first : Word := BitVec.ofNat 16 v
  match decodeHeader first with
  | .ok (.render len) => first :: (List.range len.toNat).map fun k => BitVec.ofNat 16 (v / 2 ^ (16 * (k + 1)))
  | _ => [first]

/-- The instruction the decoder reads from a word of the opcode table: a command in command position; a word of format W,
which the table gives in payload position only, in payload position. -/
def decodeTableWord (nbits w : Nat) : Option Instr :=
  match decode (tableWords nbits w) with
  | .ok (i, _) => some i
  | .error _ =>
    match tableWords nbits w with
    | [first] => if isFormatW first then some (decodePayload first) else none
    | _ => none

end Sys2Proof
end

