-- ==== Sys2Proof/Machine/Micro.lean ====
section
/-! DEFINITION. The micro-step level (10_state R20, R23; 92_eei_decisions D1): the acceptance of a command word and one
micro-step of the command in progress. -/

namespace Sys2Proof.Machine

/-- The acceptance of a legal command word: BUSY, the transient registers cleared, and the first position of the command.
With the lines released the `DRIVEN` test ends the command here, but for the payload words of a RENDER, which are still
to be dropped (R27, R20, R92, R99). Of the look-ahead register only HOLDV is cleared here; the 8 bits of HOLD stay, behind
it, until a payload word is held (DESIGN CHOICE, log 31). -/
def State.accept (h : Header) (s : State) : State :=
  let t : State :=
    { s with
      busy := true, cmd := some h, slot := 0, bit := 7
      remain := 0, holdv := false, pendp := false, discard := false }
  match h with
  | .sendDigit _ _ => if s.driven then { t with phase := .lookup } else s.complete .resourceError
  | .render len =>
    if len = 0 then (if s.driven then { t with phase := .latchHi } else s.complete .resourceError)
    else { t with phase := .lookup, remain := len, discard := !s.driven }
  | .enable => if s.driven then { t with phase := .oeWrite } else s.complete .resourceError
  | .disable => if s.driven then { t with phase := .oeWrite } else s.complete .resourceError
  | .shutdown => if s.driven then { t with phase := .oeWrite } else s.complete .ok

/-- The acceptance of any word in command position (R67, R74). -/
def State.acceptWord (w : Word) (s : State) : State :=
  match decodeHeader w with
  | .ok h => s.accept h
  | .error _ => s.illegal

/-- The LOOKUP phase with no payload word to wait for: SEND_DIGIT's character, or the held character at the end of a
frame under `B_FOLD_PREV` (R75, R92). -/
def State.lookupStep (s : State) : Host.Outcome State Fault Refusal :=
  match s.cmd with
  | some (.sendDigit p c) =>
    match resolveSlot s.cfg c p with
    | none => .next (s.complete .lookupError)
    | some v => .next { s with buf := v, bit := 7, phase := .clkLow }
  | some (.render _) =>
    if s.holdv then .next (({ s with holdv := false } : State).beginSlot s.hold false) else .fault .strayPosition
  | _ => .fault .strayPosition

/-- The third write of a bit cell, and where the sequencer goes: the next bit, or after bit 0 the end of SEND_DIGIT or
the next slot of RENDER (R77, R83). -/
def State.clkHighStep (s : State) : Host.Outcome State Fault Refusal :=
  let t := s.drive .sck true
  if s.bit = 0 then
    match s.cmd with
    | some (.sendDigit _ _) => .next (t.complete .ok)
    | some (.render _) => .next ({ t with slot := t.slot + 1, bit := 7 } : State).nextSlot
    | _ => .fault .strayPosition
  else .next { t with bit := s.bit - 1, phase := .clkLow }

/-- The one write of ENABLE, DISABLE or SHUTDOWN (R94, R95, R96). -/
def State.oeStep (s : State) : Host.Outcome State Fault Refusal :=
  match s.cmd with
  | some .enable => .next ((s.drive .vis true).complete .ok)
  | some .disable => .next ((s.drive .vis false).complete .ok)
  | some .shutdown => .next (s.release.complete .ok)
  | _ => .fault .strayPosition

/-- One micro-step of the command in progress, by its phase (R20). -/
def State.microStep (s : State) : Host.Outcome State Fault Refusal :=
  match s.phase with
  | .idle => .next s
  | .done => .next s
  | .lookup => s.lookupStep
  | .clkLow => .next { s.drive .sck false with phase := .setData }
  | .setData => .next { s.drive .data (s.buf.getLsbD s.bit) with phase := .clkHigh }
  | .clkHigh => s.clkHighStep
  | .latchHi => .next { s.drive .latch true with phase := .latchLo }
  | .latchLo => .next ((s.drive .latch false).endRender .ok)
  | .oeWrite => s.oeStep

end Sys2Proof.Machine
end

