-- ==== Sys2Proof/Machine/Stopwatch.lean ====
section
/-! DEFINITION. The host (45_host-stopwatch): the Stopwatch, the loop, and the words the host issues. -/

namespace Sys2Proof.Machine

/-- Construction at a time (R102). -/
def Stopwatch.construct (now : Rat) : Stopwatch :=
  { startInstant := now, elapsedMinutes := 0, elapsedSeconds := 0, indicator := false }

/-- `reset(now)` (R105). -/
def Stopwatch.restart (now : Rat) (_ : Stopwatch) : Stopwatch :=
  { startInstant := now, elapsedMinutes := 0, elapsedSeconds := 0, indicator := false }

/-- `floor(now - start_instant)` when it is not negative (R103). -/
def Stopwatch.totalSeconds (w : Stopwatch) (now : Rat) : Nat := (now - w.startInstant).floor.toNat

/-- `update(now)`: clamp on clock regression (R108), else minutes and seconds from the total; the indicator toggles when
the seconds value changes (R103). -/
def Stopwatch.update (now : Rat) (w : Stopwatch) : Stopwatch :=
  if now < w.startInstant then { w with elapsedMinutes := 0, elapsedSeconds := 0 }
  else
    let total := w.totalSeconds now
    let seconds := Fin.ofNat 60 total
    { w with
      elapsedMinutes := total / 60
      elapsedSeconds := seconds
      indicator := if seconds = w.elapsedSeconds then w.indicator else !w.indicator }

/-- The character of a decimal digit, code 0x30 + k (R106). -/
def digitChar (k : Nat) : Byte := 0x30 + BitVec.ofNat 8 k

/-- `render()`: two digits of minutes, '.' if the indicator is on, two digits of seconds; no meaning from 100 minutes on
(R106, R110). -/
def Stopwatch.frame (w : Stopwatch) : Option (List Byte) :=
  if w.elapsedMinutes ≤ 99 then
    some ([digitChar (w.elapsedMinutes / 10), digitChar (w.elapsedMinutes % 10)]
      ++ (if w.indicator then [pointChar] else [])
      ++ [digitChar (w.elapsedSeconds.val / 10), digitChar (w.elapsedSeconds.val % 10)])
  else none

/-- The RENDER command of a frame of character codes (R70). -/
def renderCommand (frame : List Byte) : Instr := .render (frame.map (BitVec.setWidth 16))

/-- The host has more words to present (R100). -/
def State.issue (s : State) (ws : List Word) : State := { s with words := s.words ++ ws }

/-- The host takes the Stopwatch's frame and issues RENDER of it (R100, R106, R110). -/
def State.issueFrame (s : State) : Host.Outcome State Fault Refusal :=
  match s.stopwatch.frame with
  | none => .refused .minutesOverflow
  | some frame => .next (s.issue (encode (renderCommand frame)))

/-- The host applies a Stopwatch operation. -/
def State.onStopwatch (f : Stopwatch → Stopwatch) (s : State) : State := { s with stopwatch := f s.stopwatch }

/-- One move of the host's thread (R100, R115, R131). -/
def State.hostMove (op : HostOp) (s : State) : Host.Outcome State Fault Refusal :=
  match op with
  | .construct now => .next (s.onStopwatch fun _ => .construct now)
  | .reset now => .next (s.onStopwatch (.restart now))
  | .update now => .next (s.onStopwatch (.update now))
  | .renderFrame => s.issueFrame
  | .loop fired now =>
    (((if fired then s.onStopwatch (.restart now) else s).onStopwatch (.update now)) : State).issueFrame
  | .issue ws => .next (s.issue ws)
  | .exit => .next (s.issue (encode .shutdown))

end Sys2Proof.Machine
end

