-- ==== Sys2Proof/Machine/Cycle.lean ====
section
/-! DEFINITION. One transition of the system: the boundary, then what the world outside does there, the highest priority
first (60_exceptions R125, R128; 92_eei_decisions D1), and where an instruction's words are placed for the next step. -/

namespace Sys2Proof.Machine

/-- One cycle of `clk`: the payload word a RENDER waits for, a micro-step of the command in progress, or the acceptance of
a command word; `cmdValid` says whether the host presents a word (R72, R125, R156). -/
def State.clockCycle (cmdValid : Bool) (s : State) : Host.Outcome State Fault Refusal :=
  if s.awaiting then
    match cmdValid, s.words with
    | true, w :: rest => exec (decodePayload w) { s with words := rest }
    | _, _ => .next s
  else if s.busy then s.microStep
  else
    match cmdValid, s.words with
    | true, w :: rest => .next (({ s with words := rest } : State).acceptWord w)
    | _, _ => .next s

/-- The operation level: a whole command is one transition (D1); an illegal word takes the ILLEGAL_COMMAND exception and
is consumed alone (R67). A command begun cycle by cycle goes on so, and so does a RENDER whose payload words are not all
there: the block waits for them (R72). -/
def State.operate (s : State) : Host.Outcome State Fault Refusal :=
  if s.busy then s.clockCycle true
  else
    match decode s.words with
    | .ok (i, rest) => exec i { s with words := rest }
    | .error .noWord => .next s
    | .error .missingPayload => s.clockCycle true
    | .error .payloadOpcode => .next ({ s with words := s.words.drop 1 } : State).illegal
    | .error .reservedOpcode => .next ({ s with words := s.words.drop 1 } : State).illegal
    | .error .reservedBits => .next ({ s with words := s.words.drop 1 } : State).illegal

/-- The host's thread is blocked while a command executes or words of it are still to be taken (R13, R114). -/
def State.hostBlocked (s : State) : Bool := s.busy || !s.words.isEmpty

/-- What happens at a boundary, by what the world outside does there. -/
def State.react (s : State) : Host.Outcome State Fault Refusal :=
  match s.inputs with
  | [] => s.operate
  | .clock cmdValid :: rest => ({ s with inputs := rest } : State).clockCycle cmdValid
  | .cancel :: rest => .next ({ s with inputs := rest } : State).takeCancel
  | .reset d :: rest => .next (({ s with inputs := rest } : State).applyReset d)
  | .powerUp d shift store :: rest => .next (({ s with inputs := rest } : State).powerUp d shift store)
  | .host op :: rest => if s.hostBlocked then s.operate else ({ s with inputs := rest } : State).hostMove op

/-- One transition of the system. -/
def State.transition (s : State) : Host.Outcome State Fault Refusal := s.boundary.react

/-- The state with words placed so that the next step executes them: nothing else asked for from outside, the block idle
with the words first on its port, or, for a payload word, inside a RENDER of one character (log 1, log 15). -/
def State.present (s : State) (ws : List Word) : State :=
  let t : State :=
    { s with
      inputs := [], words := ws ++ s.words
      busy := false, cmd := none, slot := 0, bit := 0, phase := .idle
      remain := 0, holdv := false, pendp := false, discard := false }
  match ws with
  | [w] => if isFormatW w then t.accept (.render 1) else t
  | _ => t

end Sys2Proof.Machine
end

