-- ==== Sys2Proof/Machine/Step.lean ====
section
/-! DEFINITION. The step, and where an instruction is put for it. -/

namespace Sys2Proof.Machine

/-- One step of the machine: one transition of the system (10_state R13, R46). -/
def step (s : State) : Host.Outcome State Fault Refusal := s.transition

/-- `s` with the instruction whose bits are `w` placed where the next step takes its instruction from (log 1). -/
def State.withFetchWord (s : State) (nbits w : Nat) : State := s.present (tableWords nbits w)

end Sys2Proof.Machine
end

