-- ==== Sys2Proof/Machine/Ports.lean ====
section
/-! DEFINITION. What can be observed: the output ports (10_state R32), the display (20_memory R52) and the edges of a list
of events (00_scope section 5). None of it is state. -/

namespace Sys2Proof.Machine

/-- `cmd_ready`: the block is idle, or waits for a payload word (R32, R72). -/
def State.cmdReady (s : State) : Bool := !s.busy || s.awaiting

/-- `done`: the one-cycle pulse after a command (R32, R73). -/
def State.donePort (s : State) : Bool := s.phase == .done

/-- `status` (R32). -/
def State.statusPort (s : State) : BitVec 3 := s.status

/-- A line's level on the wire; none when the block does not drive it (R17, R32). -/
def State.wire (s : State) (level : Bool) : Option Bool := if s.driven then some level else none

/-- Port `sck` (R32). -/
def State.sckPort (s : State) : Option Bool := s.wire s.sck

/-- Port `sdata` (R32). -/
def State.sdataPort (s : State) : Option Bool := s.wire s.data

/-- Port `latch` (R32). -/
def State.latchPort (s : State) : Option Bool := s.wire s.latch

/-- Port `oe`: `VIS ^ OE_ACTIVE_LOW` (R16, R32). -/
def State.oePort (s : State) : Option Bool := s.wire (s.vis ^^ s.cfg.oeActiveLow)

/-- What digit d shows, none if there is no such digit: the stored stage if visible, else nothing (R52). With the lines
released it is a free value, unless the platform holds the pad at its blanking level (R152, D31). -/
def State.display (s : State) (d : Nat) : Option Byte :=
  if s.driven then s.store[d]?.map fun b => if s.vis then b else 0
  else if d < s.ndigits then some (if s.cfg.platformHoldsBlank then 0 else Config.freeSegments s.draws d)
  else none

/-- The number of rising edges of a line in a list of events, from a level: writes of 1 while it holds 0. -/
def risingEdges (l : Line) : Bool → List Event → Nat
  | _, [] => 0
  | level, e :: rest =>
    if e.line = l then (if e.value && !level then 1 else 0) + risingEdges l e.value rest
    else risingEdges l level rest

/-- The number of falling edges of a line in a list of events, from a level: writes of 0 while it holds 1. -/
def fallingEdges (l : Line) : Bool → List Event → Nat
  | _, [] => 0
  | level, e :: rest =>
    if e.line = l then (if !e.value && level then 1 else 0) + fallingEdges l e.value rest
    else fallingEdges l level rest

/-- The level of a line after a list of events, from a level: the last one written (R14). -/
def levelAfter (l : Line) : Bool → List Event → Bool
  | level, [] => level
  | level, e :: rest => if e.line = l then levelAfter l e.value rest else levelAfter l level rest

/-- The decoder of R81: the levels of DATA at the rising edges of SCK, in order, from the levels of SCK and DATA. -/
def sampledBits : Bool → Bool → List Event → List Bool
  | _, _, [] => []
  | sck, data, e :: rest =>
    match e.line with
    | .sck => if e.value && !sck then data :: sampledBits e.value data rest else sampledBits e.value data rest
    | .data => sampledBits sck e.value rest
    | .latch => sampledBits sck data rest
    | .vis => sampledBits sck data rest

/-- The three writes of a bit cell (R55). -/
def cellEvents (b : Bool) : List Event := [⟨.sck, false⟩, ⟨.data, b⟩, ⟨.sck, true⟩]

/-- The 24 writes of a digit slot (R56, R77). -/
def slotEvents (v : Byte) : List Event := (slotBits v).flatMap cellEvents

/-- The two writes of a latch pulse (R58). -/
def latchEvents : List Event := [⟨.latch, true⟩, ⟨.latch, false⟩]

/-- Eight bits read back into a value, the first into bit 7 (R81). -/
def bitsValue (bits : List Bool) : Byte := bits.foldl (fun acc b => BitVec.concat (acc.setWidth 7) b) 0

end Sys2Proof.Machine
end

