-- ==== Sys2Proof/Safety.lean ====
section
/-! DEFINITION. What counts as a safe run: the invariant of the machine (10_state R20, R23, R27, R29), the final states
(70_reset R158), a step that does not fault, and the micro-steps a run performs with their bounds (70_reset R157). -/

/-- How many micro-steps a command performs at most: SEND_DIGIT 26, RENDER 3 and 25 a character, the others 2 (R91, R157); the
transfer of one payload word starts at most one. -/
def Sys2Proof.Instr.microStepBound : Instr → Nat
  | .sendDigit _ _ => 26
  | .render frame => 3 + 25 * frame.length
  | .enable => 2
  | .disable => 2
  | .shutdown => 2
  | .charw _ => 1

/-- How many cycles of `clk` a command takes at most, its words presented: its micro-steps and, for a RENDER under
`B_FOLD_PREV`, the cycle that takes the first payload word, which is only held while the block waits for the second and is
no micro-step (R72, R92, R156; log 20, 30). -/
def Sys2Proof.Instr.cycleBound (v : Config.PointVariant) (i : Instr) : Nat :=
  match v, i with
  | .bFoldPrev, .render (_ :: _) => i.microStepBound + 1
  | _, _ => i.microStepBound

namespace Sys2Proof.Machine

/-- The position belongs to a command of R20: each phase occurs only inside the commands that have it, the line writes
only while the lines are driven, and a LOOKUP has something to look up or to wait for; between the two writes of a latch
pulse LATCH is high and the chain has published its contents (R50, R58). -/
def State.positionLegal (s : State) : Prop :=
  match s.phase, s.cmd with
  | .idle, none => s.busy = false
  | .done, none => s.busy = false
  | .lookup, some (.sendDigit _ _) => s.busy = true ∧ s.driven = true
  | .lookup, some (.render _) =>
    s.busy = true ∧ (s.driven = false → s.discard = true) ∧ (s.discard = true → s.remain ≠ 0)
      ∧ (s.remain = 0 → s.holdv = true)
  | .clkLow, some (.sendDigit _ _) => s.busy = true ∧ s.driven = true
  | .clkLow, some (.render _) => s.busy = true ∧ s.driven = true ∧ s.discard = false
  | .setData, some (.sendDigit _ _) => s.busy = true ∧ s.driven = true ∧ s.sck = false
  | .setData, some (.render _) => s.busy = true ∧ s.driven = true ∧ s.sck = false ∧ s.discard = false
  | .clkHigh, some (.sendDigit _ _) => s.busy = true ∧ s.driven = true ∧ s.sck = false
  | .clkHigh, some (.render _) => s.busy = true ∧ s.driven = true ∧ s.sck = false ∧ s.discard = false
  | .latchHi, some (.render _) => s.busy = true ∧ s.driven = true
  | .latchLo, some (.render _) => s.busy = true ∧ s.driven = true ∧ s.latch = true ∧ s.store = s.shift
  | .oeWrite, some .enable => s.busy = true ∧ s.driven = true
  | .oeWrite, some .disable => s.busy = true ∧ s.driven = true
  | .oeWrite, some .shutdown => s.busy = true ∧ s.driven = true
  | _, _ => False

/-- The transient registers are cleared between commands, `BUF` and `HOLD` apart (R20, R21, R23). -/
def State.transientsClear (s : State) : Prop :=
  s.slot = 0 ∧ s.bit = 0 ∧ s.remain = 0 ∧ s.holdv = false ∧ s.pendp = false ∧ s.discard = false

/-- Each line register holds the level last written to it; before a first write SCK, DATA and LATCH hold 0 (R14, R15). -/
def State.linesMatchEvents (s : State) : Prop :=
  s.sck = levelAfter .sck false s.events ∧ s.data = levelAfter .data false s.events
    ∧ s.latch = levelAfter .latch false s.events ∧ s.vis = levelAfter .vis s.vis s.events

/-- The latch line is high only inside a latch pulse, or after a cancellation, which may have cut one short, until reset
(R29 b, R153, R154). -/
def State.latchLow (s : State) : Prop := s.latch = true → s.phase = .latchLo ∨ s.cancelled = true

/-- The lines were never driven since reset, or the last event before their release blanked the display (R29 e, R96). -/
def State.releasedBlank (s : State) : Prop :=
  s.driven = false → s.events = [] ∨ (s.vis = false ∧ s.events.getLast? = some ⟨.vis, false⟩)

/-- The chain has at least one stage, and `SHIFT` and `STORE` have equally many (R9, R47). -/
def State.chainShape (s : State) : Prop := 0 < s.shift.length ∧ s.store.length = s.shift.length

/-- The invariant: it holds at reset and every step keeps it. -/
structure State.Inv (s : State) : Prop where
  /-- `STATUS` is one of the codes of R117 (R26). -/
  statusLegal : s.status.toNat ≤ 4
  position : s.positionLegal
  clear : s.busy = false → s.transientsClear
  lines : s.linesMatchEvents
  latchLow : s.latchLow
  releasedBlank : s.releasedBlank
  /-- A cancellation leaves the lines released until reset (R126). -/
  cancelledReleased : s.cancelled = true → s.driven = false
  chain : s.chainShape

/-- A run ends here: the block is idle with its lines released (R158). -/
def State.final (s : State) : Prop := s.busy = false ∧ s.driven = false

/-- What the end of a command leaves, with the number `STATUS` takes: the `done` pulse, the block idle, the transient
registers cleared, everything else as it was (R18, R20, R27, R73, R129; the model's form of the pulse and of the cleared
registers is log 13 and 14). -/
def State.ended (status : BitVec 3) (s : State) : State :=
  { s with
    status := status, busy := false, cmd := none, slot := 0, bit := 0, phase := .done
    remain := 0, holdv := false, pendp := false, discard := false }

/-- The next input, if any, is neither a reset nor a power-up (R141). -/
def State.noReset (s : State) : Prop :=
  (∀ d rest, s.inputs ≠ .reset d :: rest) ∧ ∀ d a b rest, s.inputs ≠ .powerUp d a b :: rest

/-- The sequencer position (R20). -/
def State.position (s : State) : Nat × Fin 8 × Phase := (s.slot, s.bit, s.phase)

/-- How many micro-steps the next n steps perform: those that advance the sequencer position, apart from the boundary's own
end of the `done` pulse (R20, R157; log 30). A step that stops is none. -/
def State.microSteps : Nat → State → Nat
  | 0, _ => 0
  | n + 1, s =>
    match step s with
    | .next t => (if t.position = s.boundary.position then 0 else 1) + t.microSteps n
    | .fault _ => 0
    | .refused _ => 0

/-- The step does not fault. -/
def State.safeStep (s : State) : Prop := ∀ f, step s ≠ .fault f

end Sys2Proof.Machine
end

