-- ==== Sys2Proof/Certificates/Slice0/Obligations.lean ====
section
/-! DEFINITION. The statements about the model, one `def Obligations.<Name> : Prop` each, listed in OBLIGATIONS.json. Each
docstring names the rules of spec/ it formalises. -/

open Sys2Proof Sys2Proof.Machine

/-! ### Encoding (30_encoding) -/

/-- R61 to R64, R68: decoding the words of a well-formed command gives the command and leaves the words after it; a payload
word reads as itself, and a table word of format W as CHARW. -/
def Obligations.DecodeOfEncodeIsTheInstruction : Prop :=
  (∀ (i : Instr) (rest : List Word), i.wellFormed = true → i.header ≠ none →
      decode (encode i ++ rest) = .ok (i, rest))
    ∧ ∀ w : Word, (encode (.charw w)).map decodePayload = [.charw w]
        ∧ (w.extractLsb' 8 8 = 0#8 → decodeTableWord 16 w.toNat = some (.charw w))

/-- R68, R74: what the decoder reads is well formed, is a command, and the words read are exactly its encoding; none is
lost and none invented. -/
def Obligations.DecodedWordsAreTheEncoding : Prop :=
  ∀ (ws rest : List Word) (i : Instr), decode ws = .ok (i, rest) →
    i.wellFormed = true ∧ i.header ≠ none ∧ ws = encode i ++ rest ∧ ws.length = i.wordCount + rest.length

/-- R67, R74: the words that are no command are exactly those whose opcode is 0000 or 0110 to 1111, or whose reserved
field (by format) is not zero. -/
def Obligations.IllegalWordsAreThoseOfTheRule : Prop :=
  ∀ w : Word, (∀ h, decodeHeader w ≠ .ok h) ↔
    (w.extractLsb' 12 4 = 0b0000#4 ∨ 0b0110#4 ≤ w.extractLsb' 12 4
      ∨ (w.extractLsb' 12 4 = 0b0001#4 ∧ w.extractLsb' 9 3 ≠ 0#3)
      ∨ (w.extractLsb' 12 4 = 0b0010#4 ∧ w.extractLsb' 8 4 ≠ 0#4)
      ∨ (0b0011#4 ≤ w.extractLsb' 12 4 ∧ w.extractLsb' 12 4 ≤ 0b0101#4 ∧ w.extractLsb' 0 12 ≠ 0#12))

/-- 95_test_vectors T10 and T20: words written out from the encodings decode to the commands they stand for. -/
def Obligations.SampleWordsDecode : Prop :=
  decode [0x1131] = .ok (.sendDigit true 0x31, [])
    ∧ decode [0x10FF, 0x3000] = .ok (.sendDigit false 0xFF, [0x3000])
    ∧ decode [0x2004, 0x0032, 0x0033, 0x0020, 0x0035, 0x5000]
        = .ok (.render [0x0032, 0x0033, 0x0020, 0x0035], [0x5000])
    ∧ decode [0x3000] = .ok (.enable, []) ∧ decode [0x4000] = .ok (.disable, [])
    ∧ decode [0x5000] = .ok (.shutdown, [])
    ∧ decode [0x0030] = .error .payloadOpcode ∧ decode [0x1230] = .error .reservedBits
    ∧ decode [0x2F04] = .error .reservedBits ∧ decode [0xFFFF] = .error .reservedOpcode

/-- R63: a payload word with upper byte 0 names the character of its low byte, any other names no supported character. -/
def Obligations.PayloadWordNamesItsCharacter : Prop :=
  ∀ w : Word, (w.extractLsb' 8 8 = 0#8 → payloadChar w = w.extractLsb' 0 8)
    ∧ (w.extractLsb' 8 8 ≠ 0#8 → charIndex (payloadChar w) = none)

/-! ### Lookup and slot values (20_memory, 40_send-digit) -/

/-- R34, R38, R39: the ROM index of a character is its position in the alphabet in the order of R38, and no other code has
one; there are 16 of them. -/
def Obligations.LookupIndexIsAlphabetPosition : Prop :=
  let alphabet : List Byte :=
    [0x20, 0x30, 0x31, 0x32, 0x33, 0x34, 0x35, 0x36, 0x37, 0x38, 0x39, 0x2E, 0x50, 0x41, 0x42, 0x43]
  alphabet.length = 16 ∧ ∀ c : Byte, (charIndex c).map Fin.val = alphabet.findIdx? (fun a => a == c)

/-- R76: the forced point sets bit 3 and touches no other bit; without it the value is the glyph. -/
def Obligations.PointInjectionSetsBitThreeOnly : Prop :=
  ∀ (p : Bool) (g : Byte) (i : Nat), i < 8 →
    (slotValue p g).getLsbD i = (g.getLsbD i || (p && decide (i = 3)))

/-! ### SEND_DIGIT (40_send-digit) -/

/-- R75, R77, R79, R51: with the block idle, the lines driven and the character supported, SEND_DIGIT loads `BUF`, sends its
24 events, leaves SCK high and DATA at bit 0, moves the value into the chain's nearest stage, and changes nothing else. -/
def Obligations.SendDigitSendsOneSlot : Prop :=
  ∀ (s : State) (p : Bool) (c : Byte) (i : Fin 16),
    s.busy = false → s.driven = true → charIndex c = some i →
    let v : Byte := s.cfg.glyph[i] ||| (if p then 0x08 else 0x00)
    exec (.sendDigit p c) s = .next (State.ended 0
      { s with
        buf := v, sck := true, data := v.getLsbD 0
        events := s.events ++ slotEvents v
        shift := (v :: s.shift).dropLast })

/-- R80: the exceptions of SEND_DIGIT in the order tested; each changes nothing but `STATUS` (with the `done` pulse of R73, the
phase `.done`: log 13), so it performs no line write; there is no other way to fail. -/
def Obligations.SendDigitExceptions : Prop :=
  ∀ (s : State) (p : Bool) (c : Byte), s.busy = false → s.cmd = none → s.transientsClear →
    (s.driven = false → exec (.sendDigit p c) s = .next { s with status := 2, phase := .done })
      ∧ (s.driven = true → charIndex c = none →
          exec (.sendDigit p c) s = .next { s with status := 1, phase := .done })
      ∧ (s.driven = true → charIndex c ≠ none → ∃ t, exec (.sendDigit p c) s = .next t ∧ t.status = 0)

/-- R78: a completed SEND_DIGIT makes 8 rising edges of SCK, 7 or 8 falling ones by the level before, and no edge of LATCH
or VIS. -/
def Obligations.SendDigitEdgeCounts : Prop :=
  ∀ (s : State) (p : Bool) (c : Byte),
    s.busy = false → s.driven = true → charIndex c ≠ none →
    ∃ t new, exec (.sendDigit p c) s = .next t ∧ t.status = 0 ∧ t.events = s.events ++ new ∧ new.length = 24
      ∧ risingEdges .sck s.sck new = 8
      ∧ fallingEdges .sck s.sck new = (if s.sck then 8 else 7)
      ∧ risingEdges .latch s.latch new = 0 ∧ fallingEdges .latch s.latch new = 0
      ∧ risingEdges .vis s.vis new = 0 ∧ fallingEdges .vis s.vis new = 0

/-- R81: reading DATA at the rising edges of SCK of a completed SEND_DIGIT gives back `BUF`, the glyph when `P = 0`; the
chain's nearest stage holds it too; with `P = 1` the glyph's own bit 3 is lost. -/
def Obligations.SlotRoundTrip : Prop :=
  (∀ (s : State) (p : Bool) (c : Byte) (i : Fin 16),
    s.busy = false → s.driven = true → charIndex c = some i → s.shift ≠ [] →
    ∃ t new, exec (.sendDigit p c) s = .next t ∧ t.events = s.events ++ new ∧ new.length = 24
      ∧ (sampledBits s.sck s.data new).length = 8
      ∧ bitsValue (sampledBits s.sck s.data new) = t.buf
      ∧ (p = false → t.buf = s.cfg.glyph[i])
      ∧ t.shift.head? = some t.buf)
    ∧ ∀ g : Byte, slotValue true g = slotValue true (g ^^^ 0x08)

/-- R76, R150 (vector T3): a point forced on one slot never appears on a later slot of the same character. -/
def Obligations.NoPointBitLeakage : Prop :=
  ∀ (s : State) (c : Byte) (i : Fin 16),
    s.busy = false → s.driven = true → charIndex c = some i →
    ∃ t u, exec (.sendDigit true c) s = .next t ∧ exec (.sendDigit false c) t = .next u
      ∧ t.buf = s.cfg.glyph[i] ||| 0x08 ∧ u.buf = s.cfg.glyph[i] ∧ t.cfg = s.cfg ∧ u.cfg = s.cfg

/-! ### The chain and the display (20_memory) -/

/-- R49: `SHIFT` takes `DATA` at bit 0, every bit moving one place and the last being lost, on a rising edge of SCK with the
lines driven, and on no other write. -/
def Obligations.ChainCapturesOnRisingClock : Prop :=
  ∀ (s : State) (l : Line) (v : Bool),
    (s.drive l v).shift.length = s.shift.length
      ∧ (l = .sck ∧ v = true ∧ s.sck = false ∧ s.driven = true →
          chainValue (s.drive l v).shift
            = (2 * chainValue s.shift + (if s.data then 1 else 0)) % 2 ^ (8 * s.shift.length))
      ∧ (¬ (l = .sck ∧ v = true ∧ s.sck = false ∧ s.driven = true) → (s.drive l v).shift = s.shift)

/-- R50: `STORE` takes all of `SHIFT` at once on a rising edge of LATCH with the lines driven, and on no other write. -/
def Obligations.ChainStoresOnRisingLatch : Prop :=
  ∀ (s : State) (l : Line) (v : Bool),
    (s.drive l v).store
      = if l = .latch ∧ v = true ∧ s.latch = false ∧ s.driven = true then s.shift else s.store

/-- R51: sending slots v_0 ... v_(k-1) with the lines driven: the new `SHIFT` as a number, and what remains of old and new
stages when k is at least, or less than, the number of stages. -/
def Obligations.ChainClosedForm : Prop :=
  ∀ (s : State) (vs : List Byte), s.driven = true →
    let t := vs.foldl (fun u v => State.shiftOut v u) s
    chainValue t.shift
        = (chainValue s.shift * 2 ^ (8 * vs.length) + vs.foldl (fun n v => n * 256 + v.toNat) 0)
            % 2 ^ (8 * s.shift.length)
      ∧ (s.shift.length ≤ vs.length → t.shift = vs.reverse.take s.shift.length)
      ∧ (vs.length < s.shift.length → t.shift = vs.reverse ++ s.shift.take (s.shift.length - vs.length))

/-- R52: digit d shows stage d of `STORE` while visible and nothing while blank; there is no digit from NDIGITS on. -/
def Obligations.DisplayShowsTheStoredStage : Prop :=
  ∀ s : State, s.driven = true → ∀ d : Nat,
    (∀ b, s.store[d]? = some b → s.display d = some (if s.vis then b else 0))
      ∧ (s.store.length ≤ d → s.display d = none)

/-- R16, R17, R32, R72, R73: driven lines carry the register levels, the output-enable pad `VIS ^ OE_ACTIVE_LOW`; released
lines are not driven; `cmd_ready` is 1 on an idle block, and on a busy one exactly while a RENDER waits for a payload word,
so 0 while it sends; `done` is 1 exactly in the pulse, which every end of a command gives and the next boundary ends (the
pulse as a phase: the model's form, log 13). -/
def Obligations.OutputPorts : Prop :=
  ∀ s : State,
    (s.driven = true → s.sckPort = some s.sck ∧ s.sdataPort = some s.data ∧ s.latchPort = some s.latch
        ∧ s.oePort = some (s.vis ^^ s.cfg.oeActiveLow))
      ∧ (s.driven = false → s.sckPort = none ∧ s.sdataPort = none ∧ s.latchPort = none ∧ s.oePort = none)
      ∧ (s.busy = false → s.cmdReady = true)
      ∧ (s.busy = true → (s.cmdReady = true ↔
          s.phase = .lookup ∧ s.remain ≠ 0 ∧ ∃ len, s.cmd = some (.render len)))
      ∧ (s.busy = true → s.phase ≠ .lookup → s.cmdReady = false)
      ∧ (s.donePort = true ↔ s.phase = .done) ∧ (∀ status, (s.ended status).donePort = true)
      ∧ s.boundary.donePort = false ∧ s.statusPort = s.status

/-! ### RENDER (41_render) -/

/-- R83, R87, R51: with the block idle, the lines driven and every slot's character supported, RENDER sends the slots in
order, then one latch pulse, and publishes the chain if LATCH was low; nothing else changes but `BUF`, `STATUS`, and `HOLD`,
which the model clears (log 14). -/
def Obligations.RenderSendsSlotsThenLatches : Prop :=
  ∀ (s : State) (frame : List Word) (vs : List Byte),
    s.busy = false → s.driven = true →
    (slotsOf s.cfg.pointVariant (frame.map payloadChar)).map (fun x => resolveSlot s.cfg x.1 x.2) = vs.map some →
    let shifted := (vs.reverse ++ s.shift).take s.shift.length
    exec (.render frame) s = .next (State.ended 0
      { s with
        hold := 0
        buf := vs.getLast?.getD s.buf
        sck := !vs.isEmpty || s.sck
        data := (vs.getLast?.map fun v => v.getLsbD 0).getD s.data
        latch := false
        events := s.events ++ vs.flatMap slotEvents ++ latchEvents
        shift := shifted
        store := if s.latch then s.store else shifted })

/-- R88, R130: the first unsupported character ends RENDER with LOOKUP_ERROR: the slots before it stand, it and the later
ones emit nothing, there is no latch pulse and `STORE` is as before. (`HOLD` cleared: the model's choice, log 14.) -/
def Obligations.RenderStopsAtFirstUnsupported : Prop :=
  ∀ (s : State) (frame : List Word) (before after : List Slot) (c : Byte) (p : Bool) (vs : List Byte),
    s.busy = false → s.driven = true →
    slotsOf s.cfg.pointVariant (frame.map payloadChar) = before ++ (c, p) :: after →
    before.map (fun x => resolveSlot s.cfg x.1 x.2) = vs.map some → charIndex c = none →
    exec (.render frame) s = .next (State.ended 1
      { s with
        hold := 0
        buf := vs.getLast?.getD s.buf
        sck := !vs.isEmpty || s.sck
        data := (vs.getLast?.map fun v => v.getLsbD 0).getD s.data
        events := s.events ++ vs.flatMap slotEvents
        shift := (vs.reverse ++ s.shift).take s.shift.length })

/-- R89: the empty frame, and under `B_FOLD_NEXT` any frame of '.' only, performs no bit cell and exactly the latch pulse,
ends with OK, and publishes `SHIFT`; no other frame has an empty slot list. (The phase `.done` is the `done` pulse of R73, log 13;
`HOLD` has no meaning after a RENDER and may hold anything.) -/
def Obligations.EmptyFrameOnlyLatches : Prop :=
  (∀ (s : State) (frame : List Word),
    s.busy = false → s.cmd = none → s.transientsClear → s.driven = true → s.latch = false →
    (frame = [] ∨ (s.cfg.pointVariant = .bFoldNext ∧ ∀ w ∈ frame, payloadChar w = pointChar)) →
    ∃ hold, exec (.render frame) s = .next
      { s with
        status := 0, phase := .done, hold := hold
        events := s.events ++ [⟨.latch, true⟩, ⟨.latch, false⟩], store := s.shift })
    ∧ ∀ (v : Config.PointVariant) (f : List Byte), slotsOf v f = [] ↔
        (f = [] ∨ (v = .bFoldNext ∧ ∀ c ∈ f, c = pointChar))

/-- R90: the count law of RENDER: on success, on a lookup failure at slot k, and with the lines released. -/
def Obligations.RenderCountLaw : Prop :=
  ∀ (s : State) (frame : List Word), s.busy = false →
    let slots := slotsOf s.cfg.pointVariant (frame.map payloadChar)
    (s.driven = true → s.latch = false → (∀ x ∈ slots, charIndex x.1 ≠ none) →
        ∃ t new, exec (.render frame) s = .next t ∧ t.status = 0 ∧ t.events = s.events ++ new
          ∧ risingEdges .sck s.sck new = 8 * slots.length ∧ risingEdges .latch s.latch new = 1
          ∧ new.length = 24 * slots.length + 2
          ∧ (frame.length ≤ 255 → risingEdges .sck s.sck new ≤ 2040 ∧ new.length ≤ 6122))
      ∧ (∀ k : Nat, s.driven = true → (∀ x ∈ slots.take k, charIndex x.1 ≠ none) →
          (∃ x, slots[k]? = some x ∧ charIndex x.1 = none) →
          ∃ t new, exec (.render frame) s = .next t ∧ t.status = 1 ∧ t.events = s.events ++ new
            ∧ risingEdges .sck s.sck new = 8 * k ∧ risingEdges .latch s.latch new = 0 ∧ new.length = 24 * k)
      ∧ (s.driven = false → ∃ t, exec (.render frame) s = .next t ∧ t.status = 2 ∧ t.events = s.events)

/-- R84, R85, R86: the slots of each variant, characters and point flags. `A_STANDALONE`: every character, no flag.
`B_FOLD_NEXT`: the characters other than '.', in order, each with the flag exactly if a '.' directly precedes it.
`B_FOLD_PREV`: writing each slot as its character, with a '.' after it if it has the flag, gives back the frame, and after a
slot without the flag no '.' follows, so the flag is set exactly if a '.' directly follows and is not a slot itself; when
every '.' directly follows a character that is none, the slots are the characters other than '.', each with the flag exactly
if a '.' directly follows it. -/
def Obligations.SlotCountsOfTheVariants : Prop :=
  ∀ frame : List Byte,
    slotsA frame = frame.map (fun c => (c, false))
      ∧ (slotsNext frame).map Prod.fst = frame.filter (fun c => c != pointChar)
      ∧ slotsNext frame = ((frame.zip (0x00 :: frame)).filter (fun x => x.1 != pointChar)).map
          (fun x => (x.1, x.2 == pointChar))
      ∧ (slotsPrev frame).flatMap (fun x => if x.2 then [x.1, pointChar] else [x.1]) = frame
      ∧ (∀ (before after : List Slot) (c : Byte) (y : Slot),
          slotsPrev frame = before ++ (c, false) :: y :: after → y.1 ≠ pointChar)
      ∧ ((∀ (a b : List Byte), frame = a ++ pointChar :: b → ∃ a' c, a = a' ++ [c] ∧ c ≠ pointChar) →
          (slotsPrev frame).map Prod.fst = frame.filter (fun c => c != pointChar)
            ∧ slotsPrev frame = ((frame.zip (frame.drop 1 ++ [0x00])).filter (fun x => x.1 != pointChar)).map
                (fun x => (x.1, x.2 == pointChar)))

/-- R85, R86: the corner cases written out in the rules: '.' first, last, doubled, alone. -/
def Obligations.FoldingCornerCases : Prop :=
  slotsPrev [0x2E, 0x35] = [(0x2E, false), (0x35, false)]
    ∧ slotsPrev [0x31, 0x32, 0x2E] = [(0x31, false), (0x32, true)]
    ∧ slotsPrev [0x31, 0x2E, 0x2E, 0x32] = [(0x31, true), (0x2E, false), (0x32, false)]
    ∧ slotsPrev [0x2E, 0x2E] = [(0x2E, true)]
    ∧ slotsPrev [0x39, 0x2E, 0x39, 0x2E] = [(0x39, true), (0x39, true)]
    ∧ slotsNext [0x2E, 0x35] = [(0x35, true)]
    ∧ slotsNext [0x31, 0x32, 0x2E] = [(0x31, false), (0x32, false)]
    ∧ slotsNext [0x31, 0x2E, 0x2E, 0x32] = [(0x31, false), (0x32, true)]
    ∧ slotsNext [0x2E, 0x2E] = []
    ∧ slotsNext [0x39, 0x2E, 0x39, 0x2E] = [(0x39, false), (0x39, true)]

/-! ### ENABLE, DISABLE, SHUTDOWN (42_output-control) -/

/-- R94, R95: with the block idle and the lines driven, ENABLE and DISABLE write VIS once and change nothing else but
`STATUS`. -/
def Obligations.EnableAndDisableWriteVis : Prop :=
  ∀ s : State, s.busy = false → s.driven = true →
    exec .enable s = .next (State.ended 0 { s with vis := true, events := s.events ++ [⟨.vis, true⟩] })
      ∧ exec .disable s = .next (State.ended 0 { s with vis := false, events := s.events ++ [⟨.vis, false⟩] })

/-- R96: with the block idle and the lines driven, SHUTDOWN blanks the display, then releases the lines; SCK, DATA, LATCH and
the chain keep their values. -/
def Obligations.ShutdownBlanksThenReleases : Prop :=
  ∀ s : State, s.busy = false → s.driven = true →
    exec .shutdown s = .next (State.ended 0
      { s with vis := false, driven := false, events := s.events ++ [⟨.vis, false⟩] })

/-- R97: SHUTDOWN with the lines released performs no line write, changes nothing but `STATUS` (with the `done` pulse), and
is the only command that succeeds then. -/
def Obligations.ShutdownIsIdempotent : Prop :=
  ∀ s : State, s.busy = false → s.cmd = none → s.transientsClear → s.driven = false →
    exec .shutdown s = .next { s with status := 0, phase := .done }
      ∧ ∀ i t, i.header ≠ none → exec i s = .next t → (t.status = 0 ↔ i = .shutdown)

/-- R99: with the lines released SEND_DIGIT, RENDER, ENABLE and DISABLE change nothing but `STATUS` (with the `done` pulse),
whatever their characters; a step on such a RENDER consumes its payload words. -/
def Obligations.ReleasedCommandsReportResourceError : Prop :=
  (∀ (s : State) (i : Instr), s.busy = false → s.cmd = none → s.transientsClear → s.driven = false →
      i.header ≠ none → i ≠ .shutdown → exec i s = .next { s with status := 2, phase := .done })
    ∧ ∀ (s : State) (frame rest : List Word), s.busy = false → s.driven = false → s.inputs = [] →
        frame.length ≤ 255 → s.words = encode (.render frame) ++ rest →
        ∃ t, step s = .next t ∧ t.status = 2 ∧ t.words = rest ∧ t.events = s.events

/-- R98: ENABLE, DISABLE and SHUTDOWN never change SCK, DATA, LATCH, `SHIFT` or `STORE`; SEND_DIGIT and RENDER (and the
payload words of one) never change VIS. -/
def Obligations.VisibilityAndDataAreIndependent : Prop :=
  ∀ (s t : State) (i : Instr), exec i s = .next t →
    (i = .enable ∨ i = .disable ∨ i = .shutdown →
        t.sck = s.sck ∧ t.data = s.data ∧ t.latch = s.latch ∧ t.shift = s.shift ∧ t.store = s.store)
      ∧ (∀ p c, i = .sendDigit p c → t.vis = s.vis) ∧ (∀ frame, i = .render frame → t.vis = s.vis)
      ∧ ∀ w, i = .charw w → t.vis = s.vis

/-- R14, R17, R21, R25, R87: what no instruction changes, and what only one may: DRIVEN only SHUTDOWN, LATCH and `STORE` only
RENDER, `HOLD` only RENDER and its payload words, SCK, DATA, `BUF` and `SHIFT` only SEND_DIGIT and RENDER (`BUF` also a
payload word); recorded events stand. -/
def Obligations.InstructionFrames : Prop :=
  ∀ (s t : State) (i : Instr), exec i s = .next t →
    t.cfg = s.cfg ∧ t.cancelled = s.cancelled ∧ t.words = s.words ∧ t.inputs = s.inputs
      ∧ t.stopwatch = s.stopwatch ∧ t.draws = s.draws
      ∧ t.shift.length = s.shift.length
      ∧ (∃ new, t.events = s.events ++ new)
      ∧ (i ≠ .shutdown → t.driven = s.driven)
      ∧ ((∀ f, i ≠ .render f) → t.latch = s.latch ∧ t.store = s.store)
      ∧ ((∀ f, i ≠ .render f) → (∀ w, i ≠ .charw w) → t.hold = s.hold)
      ∧ ((∀ f, i ≠ .render f) → (∀ p c, i ≠ .sendDigit p c) →
          t.sck = s.sck ∧ t.data = s.data ∧ t.shift = s.shift)
      ∧ (i = .enable ∨ i = .disable ∨ i = .shutdown → t.buf = s.buf)
      ∧ (∀ w, i = .charw w → t.events = s.events ∧ t.vis = s.vis)

/-! ### CHARW (30_encoding R63, 41_render R92, 10_state R23) -/

/-- R23, R63, R84, R85, R86, R92: a payload word a RENDER waits for: `REMAIN` counts down, and the word is a slot, is held,
folds a point onto the held character, or sets the pending point, by `POINT_VARIANT`. That the slot a word completes has its
lookup in the very transition that takes the word (`BUF` loaded, the position at CLK_LOW) is the model's choice (log 20:
transfer and LOOKUP are one cycle). -/
def Obligations.CharwAdvancesTheFrame : Prop :=
  ∀ (s : State) (w : Word), s.awaiting = true → s.discard = false →
    let c := payloadChar w
    let t : State := { s with remain := s.remain - 1 }
    (∀ v, s.cfg.pointVariant = .aStandalone → resolveSlot s.cfg c false = some v →
        exec (.charw w) s = .next { t with buf := v, bit := 7, phase := .clkLow, pendp := false })
      ∧ (s.cfg.pointVariant = .bFoldPrev → s.holdv = false →
        exec (.charw w) s = .next { t with hold := c, holdv := true })
      ∧ (∀ v, s.cfg.pointVariant = .bFoldPrev → s.holdv = true → c = pointChar →
        resolveSlot s.cfg s.hold true = some v →
        exec (.charw w) s
          = .next { t with holdv := false, buf := v, bit := 7, phase := .clkLow, pendp := false })
      ∧ (∀ v, s.cfg.pointVariant = .bFoldPrev → s.holdv = true → c ≠ pointChar →
        resolveSlot s.cfg s.hold false = some v →
        exec (.charw w) s = .next { t with hold := c, buf := v, bit := 7, phase := .clkLow, pendp := false })
      ∧ (s.cfg.pointVariant = .bFoldNext → s.holdv = false → c = pointChar →
        exec (.charw w) s
          = .next { t with pendp := true, phase := if s.remain = 1 then .latchHi else .lookup })
      ∧ (∀ v, s.cfg.pointVariant = .bFoldNext → c ≠ pointChar → resolveSlot s.cfg c s.pendp = some v →
        exec (.charw w) s = .next { t with buf := v, bit := 7, phase := .clkLow, pendp := false })

/-- R68, R88, R92: a payload word of a RENDER that drops the rest of its frame is consumed with no other effect; the last
one ends the command with LOOKUP_ERROR, or RESOURCE_ERROR if the lines are released. (`HOLD` cleared: log 14.) -/
def Obligations.CharwDroppedAfterFailure : Prop :=
  ∀ (s : State) (w : Word), s.awaiting = true → s.discard = true →
    (s.remain ≠ 1 → exec (.charw w) s = .next { s with remain := s.remain - 1 })
      ∧ (s.remain = 1 → s.driven = true → exec (.charw w) s = .next (State.ended 1 { s with hold := 0 }))
      ∧ (s.remain = 1 → s.driven = false → exec (.charw w) s = .next (s.ended 2))

/-- R39, R63, R88, R92: a slot whose character is not supported makes RENDER drop the rest of its payload, or ends it with
LOOKUP_ERROR if nothing is left. The slot's character is the word's under `A_STANDALONE` and `B_FOLD_NEXT`, and the held one
under `B_FOLD_PREV`: when the word that shows whether a '.' follows arrives, or, at the end of the frame, in the next
cycle. That the lookup fails in the very transition that takes the word is the model's choice (log 20: transfer and LOOKUP
are one cycle), and so is `HOLD` cleared at the end (log 14). -/
def Obligations.CharwUnsupported : Prop :=
  (∀ (s : State) (w : Word), s.awaiting = true → s.discard = false → s.driven = true →
    let c := payloadChar w
    let failed (t : State) : State :=
      if s.remain = 1 then State.ended 1 { t with hold := 0 } else { t with remain := s.remain - 1, discard := true }
    (s.cfg.pointVariant = .aStandalone → charIndex c = none → exec (.charw w) s = .next (failed s))
      ∧ (s.cfg.pointVariant = .bFoldNext → charIndex c = none → exec (.charw w) s = .next (failed s))
      ∧ (s.cfg.pointVariant = .bFoldPrev → s.holdv = true → charIndex s.hold = none →
          (c = pointChar → exec (.charw w) s = .next (failed { s with holdv := false }))
            ∧ (c ≠ pointChar → exec (.charw w) s = .next (failed { s with hold := c }))))
    ∧ ∀ (s : State) (len : Byte) (v : Bool) (rest : List Input),
        s.busy = true → s.phase = .lookup → s.cmd = some (.render len) → s.remain = 0 → s.holdv = true →
        s.driven = true → charIndex s.hold = none → s.inputs = .clock v :: rest →
        step s = .next (State.ended 1 { s with hold := 0, inputs := rest })

/-- R63, R67: outside payload position a word whose opcode is 0000 is an illegal command: nothing changes but `STATUS`, with
the `done` pulse (log 13). That the instruction CHARW outside payload position answers so for a word of any opcode is the
model's choice (log 15): a step decodes such a word as what its own opcode says. -/
def Obligations.CharwOutsidePayloadIsIllegal : Prop :=
  ∀ (s : State) (w : Word), s.busy = false → exec (.charw w) s = .next (s.ended 3)

/-! ### The step (60_exceptions R128, 30_encoding R67, R72) -/

/-- D1, R74: with nothing asked from outside, a step on an idle block executes the command its words decode to, after the
boundary and with its words consumed; inside a RENDER it executes the next word as payload, whatever its bits. -/
def Obligations.StepExecutesTheDecodedInstruction : Prop :=
  (∀ (s : State) (i : Instr) (rest : List Word), s.inputs = [] → s.busy = false →
      decode s.words = .ok (i, rest) → step s = exec i { s.boundary with words := rest })
    ∧ ∀ (s : State) (w : Word) (rest : List Word), s.inputs = [] → s.awaiting = true → s.words = w :: rest →
        step s = exec (.charw w) { s.boundary with words := rest }

/-- R20, R73, R152: a boundary ends the `done` pulse; with the lines released it gives the chain free values, at new draws,
and changes nothing else. The free values are the model's form of "any value" (log 10). -/
def Obligations.BoundaryEffect : Prop :=
  ∀ s : State,
    (s.driven = true → s.boundary = { s with phase := if s.phase = .done then .idle else s.phase })
      ∧ (s.driven = false → s.boundary =
          { s with
            phase := if s.phase = .done then .idle else s.phase
            shift := (List.range s.shift.length).map (Config.freeStage s.draws)
            store := (List.range s.store.length).map (Config.freeStage (s.draws + 1))
            draws := s.draws + 2 })

/-- R67, R128: a word the rule calls illegal, in command position, performs no line write, changes no register but `STATUS`,
which becomes 3, whatever DRIVEN is; it is consumed alone and the block stays idle; 0x0000 and 0xFFFF are such words. -/
def Obligations.IllegalWordIsConsumedAlone : Prop :=
  let illegal : Word → Prop := fun w =>
    w.extractLsb' 12 4 = 0b0000#4 ∨ 0b0110#4 ≤ w.extractLsb' 12 4
      ∨ (w.extractLsb' 12 4 = 0b0001#4 ∧ w.extractLsb' 9 3 ≠ 0#3)
      ∨ (w.extractLsb' 12 4 = 0b0010#4 ∧ w.extractLsb' 8 4 ≠ 0#4)
      ∨ (0b0011#4 ≤ w.extractLsb' 12 4 ∧ w.extractLsb' 12 4 ≤ 0b0101#4 ∧ w.extractLsb' 0 12 ≠ 0#12)
  (∀ (s : State) (w : Word) (rest : List Word), s.inputs = [] → s.busy = false → s.cmd = none → s.transientsClear →
      s.words = w :: rest → illegal w →
      step s = .next { s.boundary with words := rest, status := 3, phase := .done })
    ∧ illegal 0x0000 ∧ illegal 0xFFFF

/-- R27, R151: while the block is busy it takes no command: executing one is refused, and a step with nothing asked from
outside takes no word unless it is a payload word the RENDER waits for. -/
def Obligations.BusyBlockTakesNoCommand : Prop :=
  (∀ (s : State) (i : Instr), s.busy = true → i.header ≠ none → exec i s = .refused .busy)
    ∧ ∀ (s t : State), s.busy = true → s.awaiting = false → s.inputs = [] → step s = .next t → t.words = s.words

/-- R72: a RENDER whose payload word is withheld waits: the cycle changes nothing. -/
def Obligations.WithheldPayloadWaits : Prop :=
  ∀ (s : State) (rest : List Input), s.awaiting = true → s.driven = true →
    s.inputs = .clock false :: rest → step s = .next { s with inputs := rest }

/-! ### Cancellation and reset (60_exceptions R124 to R127, 70_reset R142) -/

/-- R126: `cancel` taken at any boundary: what was done stands, the display is blanked and the lines released if they were
driven, `STATUS` is 4, the block is idle, the abandoned command's payload words are not consumed, and later commands but
SHUTDOWN give RESOURCE_ERROR; a second `cancel` has no effect. That the host presents the abandoned payload words no more
(`words` loses the next `REMAIN` of them), that a flag `cancelled` says until reset that `cancel` was acted on, and that
`done` is pulsed, are the model's choice (log 18, DEDUCED). -/
def Obligations.CancelShutsDownAtAnyBoundary : Prop :=
  ∀ (s : State) (rest : List Input), s.inputs = .cancel :: rest →
    let b := s.boundary
    (s.cancelled = true → step s = .next { b with inputs := rest })
      ∧ (s.cancelled = false → s.driven = true →
          step s = .next (State.ended 4
            { b with
              inputs := rest, words := s.words.drop s.remain.toNat, vis := false, driven := false
              cancelled := true, events := s.events ++ [⟨.vis, false⟩] }))
      ∧ (s.cancelled = false → s.driven = false →
          step s = .next (State.ended 4
            { b with inputs := rest, words := s.words.drop s.remain.toNat, cancelled := true }))
      ∧ (s.cancelled = false → ∀ t, step s = .next t → ∀ i, i.header ≠ none → i ≠ .shutdown →
          exec i t = .next (t.ended 2))

/-- R127, R154: `cancel` between the two writes of a latch pulse leaves LATCH high and the frame latched (`STORE` is
`SHIFT`), anywhere else it leaves LATCH low; inside a bit cell it leaves SCK low and the bit not shifted; the chain is as
the last write left it. -/
def Obligations.CancelCutsTheCommandShort : Prop :=
  ∀ (s t : State) (rest : List Input), s.inputs = .cancel :: rest → s.cancelled = false → s.Inv → s.driven = true →
    step s = .next t →
    t.sck = s.sck ∧ t.data = s.data ∧ t.latch = s.latch ∧ t.shift = s.shift ∧ t.store = s.store ∧ t.vis = false
      ∧ (s.phase = .setData ∨ s.phase = .clkHigh → t.sck = false)
      ∧ (s.phase = .latchLo → t.latch = true ∧ t.store = t.shift) ∧ (s.phase ≠ .latchLo → t.latch = false) ∧ t.final

/-- R28, R142: reset in one step: every register at its reset value, the draws as drawn, no line write, the chain not
touched, no `cancel` pending. The spec gives the position as IDLE alone: SLOT and BIT at 0 are the model's choice (log 32),
and so is it that the dropped command's payload words leave `words` (log 19). -/
def Obligations.ResetSetsEveryRegister : Prop :=
  ∀ (s : State) (d : ResetDraws) (rest : List Input), s.inputs = .reset d :: rest →
    step s = .next
      { s.boundary with
        sck := false, data := false, latch := false, vis := d.resetVis, driven := d.acquireOk
        status := if d.acquireOk then 0 else 2
        busy := false, cmd := none, slot := 0, bit := 0, phase := .idle
        buf := d.buf, remain := 0, hold := d.hold, holdv := false, pendp := false, discard := false
        cancelled := false, events := []
        words := s.words.drop s.remain.toNat, inputs := rest }

/-- R48, R141: power-up does to the block what `rst` does, and the chain holds whatever was drawn for it. -/
def Obligations.PowerUpDrawsTheChain : Prop :=
  ∀ (s t u : State) (d : ResetDraws) (a b : List Byte) (rest : List Input),
    a.length = s.shift.length → b.length = s.shift.length →
    step { s with inputs := .powerUp d a b :: rest } = .next t →
    step { s with inputs := .reset d :: rest } = .next u → t = { u with shift := a, store := b }

/-- R15, R18, R28, R102: the state after reset. The model's choice, not the spec's, are the draws: the lines acquired, VIS 0
and the chain all zero (log 4, 5, 6); the Stopwatch constructed at time 0 (log 23); and that no word and no input is waiting
(log 1), by which a step from it changes nothing (R143: after reset the block waits for the host's first command). -/
def Obligations.StateAfterReset : Prop :=
  State.reset.sck = false ∧ State.reset.data = false ∧ State.reset.latch = false
    ∧ State.reset.status = (if State.reset.driven then 0 else 2) ∧ State.reset.busy = false
    ∧ State.reset.phase = .idle ∧ State.reset.remain = 0 ∧ State.reset.holdv = false
    ∧ State.reset.pendp = false ∧ State.reset.discard = false ∧ State.reset.events = []
    ∧ State.reset.cancelled = false ∧ State.reset.driven = true ∧ State.reset.vis = false
    ∧ State.reset.shift = List.replicate Config.ndigits 0 ∧ State.reset.store = List.replicate Config.ndigits 0
    ∧ State.reset.words = [] ∧ State.reset.inputs = []
    ∧ State.reset.stopwatch = .construct 0 ∧ step State.reset = .next State.reset

/-! ### Invariants and whole-machine rules -/

/-- The invariant holds at reset. -/
def Obligations.ResetHasTheInvariant : Prop := State.reset.Inv

/-- R14, R20, R26, R29, R47, R126: every step from a state that keeps the invariant gives one that keeps it. -/
def Obligations.EveryStepKeepsTheInvariant : Prop := ∀ s t : State, s.Inv → step s = .next t → t.Inv

/-- R117, R129: no step from a state that keeps the invariant faults; a refusal is only the host's, at 100 minutes (R110). -/
def Obligations.InvariantStatesNeverFault : Prop :=
  ∀ s : State, s.Inv → s.safeStep ∧ ∀ r, step s = .refused r → r = .minutesOverflow

/-- R29 d: once the lines are released they stay so and `EVENTS` does not grow, until reset. -/
def Obligations.ReleasedStaysReleased : Prop :=
  ∀ s t : State, s.Inv → s.driven = false → s.noReset → step s = .next t → t.driven = false ∧ t.events = s.events

/-- R29 a, b, c, f: between commands SCK rests high once a slot has been sent and low before; DATA is bit 0 of the last value
sent, or 0; LATCH is low; the rising edges of SCK since reset are 8 for each slot. True at reset; every instruction an idle
block executes keeps it. -/
def Obligations.LinesRestBetweenCommands : Prop :=
  let rests : State → Prop := fun s =>
    let edges := risingEdges .sck false s.events
    s.sck = levelAfter .sck false s.events ∧ s.latch = false ∧ 8 ∣ edges ∧ (s.sck = true ↔ edges ≠ 0)
      ∧ s.data = (s.sck && s.buf.getLsbD 0)
  rests State.reset
    ∧ ∀ (s t : State) (i : Instr), s.busy = false → rests s → exec i s = .next t → rests t

/-- R17: nothing but reset drives released lines; what clears DRIVEN is SHUTDOWN or `cancel`, and it leaves VIS 0 (R29 e). -/
def Obligations.OnlyResetAcquiresTheLines : Prop :=
  ∀ s t : State, s.noReset → step s = .next t →
    (t.driven = true → s.driven = true) ∧ (s.driven = true → t.driven = false → t.vis = false)

/-- R38, R54, R150: no step writes the glyph ROM or any other parameter. -/
def Obligations.NoStepWritesTheParameters : Prop := ∀ s t : State, step s = .next t → t.cfg = s.cfg

/-- R24, R126: until a reset no recorded event is changed or lost. -/
def Obligations.RecordedEventsStand : Prop :=
  ∀ s t : State, s.noReset → step s = .next t → ∃ new, t.events = s.events ++ new

/-- R18, R73, R126, R129: `STATUS` is written only where a command ends (an illegal word among them), where a cancellation is
taken, also on an idle block, or in a reset: after the write the block is not busy, and either `done` is pulsed or the step
took a reset. That a cancellation pulses `done` is the model's choice (log 18, DEDUCED), and so is the pulse as the phase
`.done` (log 13, DEDUCED). -/
def Obligations.StatusIsWrittenAtCompletion : Prop :=
  ∀ s t : State, step s = .next t → t.status ≠ s.status → t.busy = false ∧ (t.phase = .done ∨ ¬ s.noReset)

/-- D1, R77, R83, R92: the two levels agree: with the lines driven and its words presented, a command run cycle by cycle
ends, within its bound of cycles (log 20), in exactly the state its one transition gives. -/
def Obligations.MicroStepLevelAgreesWithOperationLevel : Prop :=
  ∀ (s : State) (i : Instr) (rest : List Word),
    s.Inv → s.busy = false → s.driven = true → s.inputs = [] → i.wellFormed = true → i.header ≠ none →
    s.words = encode i ++ rest →
    ∃ n t, n ≤ i.cycleBound s.cfg.pointVariant ∧ exec i { s.boundary with words := rest } = .next t
      ∧ core.run n { s with inputs := List.replicate n (.clock true) } = .next t

/-- R157, R91, R72: every command ends, its words presented, whether the lines are driven or released, after at most as many
micro-steps as the rule says (SEND_DIGIT 26, RENDER 3 and 25 a character, the others 2); and the wait for a payload word is
the only one: every other cycle of a busy block is a micro-step. That a micro-step is a cycle that advances the sequencer
position is the model's reading (R20; log 30, DEDUCED). -/
def Obligations.CommandsEndWithinTheirBounds : Prop :=
  (∀ (s : State) (i : Instr) (rest : List Word),
    s.Inv → s.busy = false → s.inputs = [] → i.wellFormed = true → i.header ≠ none → s.words = encode i ++ rest →
    ∃ n t, n ≤ i.cycleBound s.cfg.pointVariant
      ∧ core.run n { s with inputs := List.replicate n (.clock true) } = .next t
      ∧ t.busy = false ∧ t.phase = .done ∧ t.words = rest
      ∧ ({ s with inputs := List.replicate n (.clock true) } : State).microSteps n ≤ i.microStepBound)
    ∧ ∀ (s : State) (v : Bool) (rest : List Input),
        s.Inv → s.busy = true → s.awaiting = false → s.inputs = .clock v :: rest →
        ∃ t, step s = .next t ∧ t.position ≠ s.position

/-! ### The host (45_host-stopwatch) -/

/-- R103, R108: `update`: clamp below the start instant with the indicator kept; else minutes and seconds from the floor of
the difference, the indicator toggled exactly when the seconds value changes; the start instant is kept. -/
def Obligations.StopwatchUpdate : Prop :=
  ∀ (w : Stopwatch) (now : Rat),
    let u := w.update now
    u.startInstant = w.startInstant
      ∧ (now < w.startInstant → u.elapsedMinutes = 0 ∧ u.elapsedSeconds = 0 ∧ u.indicator = w.indicator)
      ∧ (w.startInstant ≤ now →
          ((60 * u.elapsedMinutes + u.elapsedSeconds.val : Nat) : Int) = (now - w.startInstant).floor
            ∧ (u.indicator = !w.indicator ↔ u.elapsedSeconds ≠ w.elapsedSeconds))

/-- R102, R105, S4, S7: construction and `reset(now)` give 0:00 with the indicator off, and the frame "0000"; the count goes
on from the new start instant. -/
def Obligations.StopwatchResetShowsZeros : Prop :=
  ∀ (w : Stopwatch) (now : Rat),
    w.restart now = ⟨now, 0, 0, false⟩ ∧ Stopwatch.construct now = ⟨now, 0, 0, false⟩
      ∧ (w.restart now).frame = some [0x30, 0x30, 0x30, 0x30]
      ∧ ∀ later, now ≤ later →
          let u := (w.restart now).update later
          ((60 * u.elapsedMinutes + u.elapsedSeconds.val : Nat) : Int) = (later - now).floor

/-- R106, R110: below 100 minutes the frame is the digits of the minutes, '.' if the indicator is on, the digits of the
seconds; from 100 minutes on there is none. -/
def Obligations.StopwatchFrameDigits : Prop :=
  ∀ w : Stopwatch,
    (w.elapsedMinutes ≤ 99 → ∃ m1 m0 s1 s0 : Nat, m1 ≤ 9 ∧ m0 ≤ 9 ∧ s1 ≤ 5 ∧ s0 ≤ 9
        ∧ w.elapsedMinutes = 10 * m1 + m0 ∧ w.elapsedSeconds.val = 10 * s1 + s0
        ∧ w.frame = some ([BitVec.ofNat 8 (0x30 + m1), BitVec.ofNat 8 (0x30 + m0)]
            ++ (if w.indicator then [0x2E] else []) ++ [BitVec.ofNat 8 (0x30 + s1), BitVec.ofNat 8 (0x30 + s0)]))
      ∧ (100 ≤ w.elapsedMinutes → w.frame = none)

/-- R107: no frame of the Stopwatch has an unsupported character; without the indicator it has 4 slots under every variant;
with it 5 under `A_STANDALONE`, and 4 with the point on the second minutes digit or on the first seconds digit. -/
def Obligations.StopwatchFrameSlots : Prop :=
  ∀ (w : Stopwatch) (f : List Byte), w.frame = some f →
    (∀ c ∈ f, charIndex c ≠ none)
      ∧ (w.indicator = false → f.length = 4 ∧ ∀ v, slotsOf v f = f.map (fun c => (c, false)))
      ∧ (w.indicator = true → ∃ m1 m0 s1 s0, f = [m1, m0, pointChar, s1, s0]
          ∧ slotsOf .aStandalone f
              = [(m1, false), (m0, false), (pointChar, false), (s1, false), (s0, false)]
          ∧ slotsOf .bFoldPrev f = [(m1, false), (m0, true), (s1, false), (s0, false)]
          ∧ slotsOf .bFoldNext f = [(m1, false), (m0, false), (s1, true), (s0, false)])

/-- R100, R110: one pass of the loop, when the host is not blocked: reset if the signal fired, update, and the RENDER of the
frame is issued; at 100 minutes it is refused. -/
def Obligations.HostLoopIssuesTheFrame : Prop :=
  ∀ (s : State) (fired : Bool) (now : Rat) (rest : List Input),
    s.inputs = .host (.loop fired now) :: rest → s.busy = false → s.words = [] →
    let w := (if fired then s.stopwatch.restart now else s.stopwatch).update now
    (∀ f, w.frame = some f →
        step s = .next
          { s.boundary with
            inputs := rest, stopwatch := w
            words := encode (.render (f.map (BitVec.setWidth 16))) })
      ∧ (w.frame = none → step s = .refused .minutesOverflow)

/-- R107, R114: what the host issues decodes to the RENDER of the Stopwatch's frame, and the block reads back exactly the
frame's characters. -/
def Obligations.IssuedFrameIsReadBack : Prop :=
  ∀ (w : Stopwatch) (f : List Byte) (rest : List Word), w.frame = some f →
    decode (encode (renderCommand f) ++ rest) = .ok (renderCommand f, rest)
      ∧ (f.map (BitVec.setWidth 16)).map payloadChar = f
end

