-- ==== Sys2Proof/Laws/Chain.lean ====
section
/-! SUPPORT. The chain: one capture as a number, and 8 captures of a slot as one stage pushed in (20_memory R49, R51). -/

namespace Sys2Proof.Machine

@[simp] theorem shiftIn_length (d : Bool) (l : List Byte) : (shiftIn d l).length = l.length := by
  induction l generalizing d with
  | nil => rfl
  | cons b rest ih => simp [shiftIn, ih]

theorem chainValue_lt (l : List Byte) : chainValue l < 2 ^ (8 * l.length) := by
  induction l with
  | nil => simp [chainValue]
  | cons b rest ih =>
    have hb := b.isLt
    have : 2 ^ (8 * (b :: rest).length) = 256 * 2 ^ (8 * rest.length) := by
      rw [List.length_cons, Nat.mul_succ, Nat.pow_add]; omega
    simp only [chainValue]
    omega

theorem concat_setWidth_toNat (b : Byte) (d : Bool) :
    (BitVec.concat (b.setWidth 7) d).toNat + 256 * b.msb.toNat = 2 * b.toNat + d.toNat := by
  have hb := b.isLt
  simp only [BitVec.toNat_concat, BitVec.toNat_setWidth, BitVec.msb_eq_decide]
  by_cases h : 128 ≤ b.toNat <;> simp [h] <;> omega

/-- R49 as arithmetic. -/
theorem chainValue_shiftIn (d : Bool) (l : List Byte) :
    chainValue (shiftIn d l) = (2 * chainValue l + d.toNat) % 2 ^ (8 * l.length) := by
  induction l generalizing d with
  | nil => simp [shiftIn, chainValue, Nat.mod_one]
  | cons b rest ih =>
    have hp : 2 ^ (8 * (b :: rest).length) = 256 * 2 ^ (8 * rest.length) := by
      rw [List.length_cons, Nat.mul_succ, Nat.pow_add]; omega
    have hc := concat_setWidth_toNat b d
    have hlt : (BitVec.concat (b.setWidth 7) d).toNat < 256 := (BitVec.concat (b.setWidth 7) d).isLt
    simp only [shiftIn, chainValue, ih]
    rw [hp, Nat.mod_mul, Nat.mul_add]
    have h1 : 2 * b.toNat + 2 * (256 * chainValue rest) + d.toNat
        = (BitVec.concat (b.setWidth 7) d).toNat + 256 * (2 * chainValue rest + b.msb.toNat) := by omega
    rw [h1]
    congr 1
    · omega
    · congr 2; omega

theorem chainValue_append (a b : List Byte) :
    chainValue (a ++ b) = chainValue a + 256 ^ a.length * chainValue b := by
  induction a with
  | nil => simp [chainValue]
  | cons x a ih => simp [chainValue, ih, Nat.pow_succ]; ring

/-- The nearest stages are the low bits. -/
theorem chainValue_take (n : Nat) (l : List Byte) (h : n ≤ l.length) :
    chainValue (l.take n) = chainValue l % 2 ^ (8 * n) := by
  conv_rhs => rw [← List.take_append_drop n l, chainValue_append]
  have h1 := chainValue_lt (l.take n)
  have h2 : (l.take n).length = n := by simp [h]
  rw [h2] at h1 ⊢
  rw [show 256 = 2 ^ 8 by norm_num, ← Nat.pow_mul, Nat.add_mul_mod_self_left, Nat.mod_eq_of_lt h1]

/-- Slots sent one after another, as the digits of a number in base 256. -/
theorem chainValue_reverse (vs : List Byte) (n : Nat) :
    vs.foldl (fun n v => n * 256 + v.toNat) n = n * 256 ^ vs.length + chainValue vs.reverse := by
  induction vs generalizing n with
  | nil => simp [chainValue]
  | cons v vs ih =>
    rw [List.foldl_cons, ih, List.reverse_cons, chainValue_append]
    simp [chainValue, Nat.pow_succ]; ring

/-- The stage a chain register gets when 8 bits are captured. -/
theorem concat_slotBits (b v : Byte) :
    (slotBits v).foldl (fun acc d => BitVec.concat (acc.setWidth 7) d) b = v := by
  apply BitVec.eq_of_getLsbD_eq
  intro i hi
  have h : i = 0 ∨ i = 1 ∨ i = 2 ∨ i = 3 ∨ i = 4 ∨ i = 5 ∨ i = 6 ∨ i = 7 := by omega
  rcases h with rfl | rfl | rfl | rfl | rfl | rfl | rfl | rfl <;>
    simp [slotBits]

/-- The bits that leave a stage while 8 bits are captured are its own, bit 7 first. -/
theorem shiftIn_foldl_cons (b v : Byte) (rest : List Byte) :
    (slotBits v).foldl (fun l d => shiftIn d l) (b :: rest)
      = v :: (slotBits b).foldl (fun l d => shiftIn d l) rest := by
  have h : ∀ (acc : Byte) (r : List Byte), (slotBits v).foldl (fun l d => shiftIn d l) (acc :: r)
      = (slotBits v).foldl (fun a d => BitVec.concat (a.setWidth 7) d) acc
        :: (slotBits acc).foldl (fun l d => shiftIn d l) r := by
    intro acc r
    simp only [slotBits, List.map_cons, List.map_nil, List.foldl_cons, List.foldl_nil, shiftIn]
    simp [BitVec.msb_eq_getLsbD_last]
  rw [h, concat_slotBits]

/-- R51 for one slot: the value becomes the nearest stage and the farthest stage is lost. -/
theorem shiftIn_foldl (v : Byte) (l : List Byte) :
    (slotBits v).foldl (fun l d => shiftIn d l) l = (v :: l).dropLast := by
  induction l generalizing v with
  | nil => simp [slotBits, shiftIn]
  | cons b rest ih => rw [shiftIn_foldl_cons, ih]; rfl

end Sys2Proof.Machine
end

