-- ==== Sys2Proof/Laws/State.lean ====
section
/-! SUPPORT. For each shared operation, what it does to each field of the state, one lemma a field. -/

namespace Sys2Proof.Machine

/-! ### `drive`: what every line leaves, and the event -/

@[simp] theorem State.drive_driven (s : State) (l : Line) (v : Bool) : (s.drive l v).driven = s.driven := by cases l <;> rfl
@[simp] theorem State.drive_status (s : State) (l : Line) (v : Bool) : (s.drive l v).status = s.status := by cases l <;> rfl
@[simp] theorem State.drive_busy (s : State) (l : Line) (v : Bool) : (s.drive l v).busy = s.busy := by cases l <;> rfl
@[simp] theorem State.drive_cmd (s : State) (l : Line) (v : Bool) : (s.drive l v).cmd = s.cmd := by cases l <;> rfl
@[simp] theorem State.drive_slot (s : State) (l : Line) (v : Bool) : (s.drive l v).slot = s.slot := by cases l <;> rfl
@[simp] theorem State.drive_bit (s : State) (l : Line) (v : Bool) : (s.drive l v).bit = s.bit := by cases l <;> rfl
@[simp] theorem State.drive_phase (s : State) (l : Line) (v : Bool) : (s.drive l v).phase = s.phase := by cases l <;> rfl
@[simp] theorem State.drive_buf (s : State) (l : Line) (v : Bool) : (s.drive l v).buf = s.buf := by cases l <;> rfl
@[simp] theorem State.drive_remain (s : State) (l : Line) (v : Bool) : (s.drive l v).remain = s.remain := by cases l <;> rfl
@[simp] theorem State.drive_hold (s : State) (l : Line) (v : Bool) : (s.drive l v).hold = s.hold := by cases l <;> rfl
@[simp] theorem State.drive_holdv (s : State) (l : Line) (v : Bool) : (s.drive l v).holdv = s.holdv := by cases l <;> rfl
@[simp] theorem State.drive_pendp (s : State) (l : Line) (v : Bool) : (s.drive l v).pendp = s.pendp := by cases l <;> rfl
@[simp] theorem State.drive_discard (s : State) (l : Line) (v : Bool) : (s.drive l v).discard = s.discard := by cases l <;> rfl
@[simp] theorem State.drive_cancelled (s : State) (l : Line) (v : Bool) : (s.drive l v).cancelled = s.cancelled := by cases l <;> rfl
@[simp] theorem State.drive_events (s : State) (l : Line) (v : Bool) : (s.drive l v).events = s.events ++ [⟨l, v⟩] := by cases l <;> rfl
@[simp] theorem State.drive_words (s : State) (l : Line) (v : Bool) : (s.drive l v).words = s.words := by cases l <;> rfl
@[simp] theorem State.drive_inputs (s : State) (l : Line) (v : Bool) : (s.drive l v).inputs = s.inputs := by cases l <;> rfl
@[simp] theorem State.drive_stopwatch (s : State) (l : Line) (v : Bool) : (s.drive l v).stopwatch = s.stopwatch := by cases l <;> rfl
@[simp] theorem State.drive_draws (s : State) (l : Line) (v : Bool) : (s.drive l v).draws = s.draws := by cases l <;> rfl
@[simp] theorem State.drive_cfg (s : State) (l : Line) (v : Bool) : (s.drive l v).cfg = s.cfg := by cases l <;> rfl

/-! ### `complete` -/

@[simp] theorem State.complete_sck (s : State) (c : Code) : (s.complete c).sck = s.sck := rfl
@[simp] theorem State.complete_data (s : State) (c : Code) : (s.complete c).data = s.data := rfl
@[simp] theorem State.complete_latch (s : State) (c : Code) : (s.complete c).latch = s.latch := rfl
@[simp] theorem State.complete_vis (s : State) (c : Code) : (s.complete c).vis = s.vis := rfl
@[simp] theorem State.complete_driven (s : State) (c : Code) : (s.complete c).driven = s.driven := rfl
@[simp] theorem State.complete_status (s : State) (c : Code) : (s.complete c).status = c.bits := rfl
@[simp] theorem State.complete_busy (s : State) (c : Code) : (s.complete c).busy = false := rfl
@[simp] theorem State.complete_cmd (s : State) (c : Code) : (s.complete c).cmd = none := rfl
@[simp] theorem State.complete_slot (s : State) (c : Code) : (s.complete c).slot = 0 := rfl
@[simp] theorem State.complete_bit (s : State) (c : Code) : (s.complete c).bit = 0 := rfl
@[simp] theorem State.complete_phase (s : State) (c : Code) : (s.complete c).phase = .done := rfl
@[simp] theorem State.complete_buf (s : State) (c : Code) : (s.complete c).buf = s.buf := rfl
@[simp] theorem State.complete_remain (s : State) (c : Code) : (s.complete c).remain = 0 := rfl
@[simp] theorem State.complete_hold (s : State) (c : Code) : (s.complete c).hold = s.hold := rfl
@[simp] theorem State.complete_holdv (s : State) (c : Code) : (s.complete c).holdv = false := rfl
@[simp] theorem State.complete_pendp (s : State) (c : Code) : (s.complete c).pendp = false := rfl
@[simp] theorem State.complete_discard (s : State) (c : Code) : (s.complete c).discard = false := rfl
@[simp] theorem State.complete_cancelled (s : State) (c : Code) : (s.complete c).cancelled = s.cancelled := rfl
@[simp] theorem State.complete_events (s : State) (c : Code) : (s.complete c).events = s.events := rfl
@[simp] theorem State.complete_shift (s : State) (c : Code) : (s.complete c).shift = s.shift := rfl
@[simp] theorem State.complete_store (s : State) (c : Code) : (s.complete c).store = s.store := rfl
@[simp] theorem State.complete_words (s : State) (c : Code) : (s.complete c).words = s.words := rfl
@[simp] theorem State.complete_inputs (s : State) (c : Code) : (s.complete c).inputs = s.inputs := rfl
@[simp] theorem State.complete_stopwatch (s : State) (c : Code) : (s.complete c).stopwatch = s.stopwatch := rfl
@[simp] theorem State.complete_draws (s : State) (c : Code) : (s.complete c).draws = s.draws := rfl
@[simp] theorem State.complete_cfg (s : State) (c : Code) : (s.complete c).cfg = s.cfg := rfl

/-! ### `release` -/

@[simp] theorem State.release_sck (s : State) : s.release.sck = s.sck := by unfold State.release; cases h : s.driven <;> simp [State.drive, h]
@[simp] theorem State.release_data (s : State) : s.release.data = s.data := by unfold State.release; cases h : s.driven <;> simp [State.drive, h]
@[simp] theorem State.release_latch (s : State) : s.release.latch = s.latch := by unfold State.release; cases h : s.driven <;> simp [State.drive, h]
@[simp] theorem State.release_vis (s : State) : s.release.vis = (if s.driven then false else s.vis) := by unfold State.release; cases h : s.driven <;> simp [State.drive, h]
@[simp] theorem State.release_driven (s : State) : s.release.driven = false := by unfold State.release; cases h : s.driven <;> simp [State.drive, h]
@[simp] theorem State.release_status (s : State) : s.release.status = s.status := by unfold State.release; cases h : s.driven <;> simp [State.drive, h]
@[simp] theorem State.release_busy (s : State) : s.release.busy = s.busy := by unfold State.release; cases h : s.driven <;> simp [State.drive, h]
@[simp] theorem State.release_cmd (s : State) : s.release.cmd = s.cmd := by unfold State.release; cases h : s.driven <;> simp [State.drive, h]
@[simp] theorem State.release_slot (s : State) : s.release.slot = s.slot := by unfold State.release; cases h : s.driven <;> simp [State.drive, h]
@[simp] theorem State.release_bit (s : State) : s.release.bit = s.bit := by unfold State.release; cases h : s.driven <;> simp [State.drive, h]
@[simp] theorem State.release_phase (s : State) : s.release.phase = s.phase := by unfold State.release; cases h : s.driven <;> simp [State.drive, h]
@[simp] theorem State.release_buf (s : State) : s.release.buf = s.buf := by unfold State.release; cases h : s.driven <;> simp [State.drive, h]
@[simp] theorem State.release_remain (s : State) : s.release.remain = s.remain := by unfold State.release; cases h : s.driven <;> simp [State.drive, h]
@[simp] theorem State.release_hold (s : State) : s.release.hold = s.hold := by unfold State.release; cases h : s.driven <;> simp [State.drive, h]
@[simp] theorem State.release_holdv (s : State) : s.release.holdv = s.holdv := by unfold State.release; cases h : s.driven <;> simp [State.drive, h]
@[simp] theorem State.release_pendp (s : State) : s.release.pendp = s.pendp := by unfold State.release; cases h : s.driven <;> simp [State.drive, h]
@[simp] theorem State.release_discard (s : State) : s.release.discard = s.discard := by unfold State.release; cases h : s.driven <;> simp [State.drive, h]
@[simp] theorem State.release_cancelled (s : State) : s.release.cancelled = s.cancelled := by unfold State.release; cases h : s.driven <;> simp [State.drive, h]
@[simp] theorem State.release_events (s : State) : s.release.events = (if s.driven then s.events ++ [⟨.vis, false⟩] else s.events) := by unfold State.release; cases h : s.driven <;> simp [State.drive, h]
@[simp] theorem State.release_shift (s : State) : s.release.shift = s.shift := by unfold State.release; cases h : s.driven <;> simp [State.drive, h]
@[simp] theorem State.release_store (s : State) : s.release.store = s.store := by unfold State.release; cases h : s.driven <;> simp [State.drive, h]
@[simp] theorem State.release_words (s : State) : s.release.words = s.words := by unfold State.release; cases h : s.driven <;> simp [State.drive, h]
@[simp] theorem State.release_inputs (s : State) : s.release.inputs = s.inputs := by unfold State.release; cases h : s.driven <;> simp [State.drive, h]
@[simp] theorem State.release_stopwatch (s : State) : s.release.stopwatch = s.stopwatch := by unfold State.release; cases h : s.driven <;> simp [State.drive, h]
@[simp] theorem State.release_draws (s : State) : s.release.draws = s.draws := by unfold State.release; cases h : s.driven <;> simp [State.drive, h]
@[simp] theorem State.release_cfg (s : State) : s.release.cfg = s.cfg := by unfold State.release; cases h : s.driven <;> simp [State.drive, h]

/-! ### `withdrawPayload` -/

@[simp] theorem State.withdrawPayload_sck (s : State) : s.withdrawPayload.sck = s.sck := rfl
@[simp] theorem State.withdrawPayload_data (s : State) : s.withdrawPayload.data = s.data := rfl
@[simp] theorem State.withdrawPayload_latch (s : State) : s.withdrawPayload.latch = s.latch := rfl
@[simp] theorem State.withdrawPayload_vis (s : State) : s.withdrawPayload.vis = s.vis := rfl
@[simp] theorem State.withdrawPayload_driven (s : State) : s.withdrawPayload.driven = s.driven := rfl
@[simp] theorem State.withdrawPayload_status (s : State) : s.withdrawPayload.status = s.status := rfl
@[simp] theorem State.withdrawPayload_busy (s : State) : s.withdrawPayload.busy = s.busy := rfl
@[simp] theorem State.withdrawPayload_cmd (s : State) : s.withdrawPayload.cmd = s.cmd := rfl
@[simp] theorem State.withdrawPayload_slot (s : State) : s.withdrawPayload.slot = s.slot := rfl
@[simp] theorem State.withdrawPayload_bit (s : State) : s.withdrawPayload.bit = s.bit := rfl
@[simp] theorem State.withdrawPayload_phase (s : State) : s.withdrawPayload.phase = s.phase := rfl
@[simp] theorem State.withdrawPayload_buf (s : State) : s.withdrawPayload.buf = s.buf := rfl
@[simp] theorem State.withdrawPayload_remain (s : State) : s.withdrawPayload.remain = s.remain := rfl
@[simp] theorem State.withdrawPayload_hold (s : State) : s.withdrawPayload.hold = s.hold := rfl
@[simp] theorem State.withdrawPayload_holdv (s : State) : s.withdrawPayload.holdv = s.holdv := rfl
@[simp] theorem State.withdrawPayload_pendp (s : State) : s.withdrawPayload.pendp = s.pendp := rfl
@[simp] theorem State.withdrawPayload_discard (s : State) : s.withdrawPayload.discard = s.discard := rfl
@[simp] theorem State.withdrawPayload_cancelled (s : State) : s.withdrawPayload.cancelled = s.cancelled := rfl
@[simp] theorem State.withdrawPayload_events (s : State) : s.withdrawPayload.events = s.events := rfl
@[simp] theorem State.withdrawPayload_shift (s : State) : s.withdrawPayload.shift = s.shift := rfl
@[simp] theorem State.withdrawPayload_store (s : State) : s.withdrawPayload.store = s.store := rfl
@[simp] theorem State.withdrawPayload_words (s : State) : s.withdrawPayload.words = s.words.drop s.remain.toNat := rfl
@[simp] theorem State.withdrawPayload_inputs (s : State) : s.withdrawPayload.inputs = s.inputs := rfl
@[simp] theorem State.withdrawPayload_stopwatch (s : State) : s.withdrawPayload.stopwatch = s.stopwatch := rfl
@[simp] theorem State.withdrawPayload_draws (s : State) : s.withdrawPayload.draws = s.draws := rfl
@[simp] theorem State.withdrawPayload_cfg (s : State) : s.withdrawPayload.cfg = s.cfg := rfl

/-! ### `boundary` -/

@[simp] theorem State.boundary_sck (s : State) : s.boundary.sck = s.sck := by
  unfold State.boundary State.drift State.endPulse; split <;> split <;> simp_all
@[simp] theorem State.boundary_data (s : State) : s.boundary.data = s.data := by
  unfold State.boundary State.drift State.endPulse; split <;> split <;> simp_all
@[simp] theorem State.boundary_latch (s : State) : s.boundary.latch = s.latch := by
  unfold State.boundary State.drift State.endPulse; split <;> split <;> simp_all
@[simp] theorem State.boundary_vis (s : State) : s.boundary.vis = s.vis := by
  unfold State.boundary State.drift State.endPulse; split <;> split <;> simp_all
@[simp] theorem State.boundary_driven (s : State) : s.boundary.driven = s.driven := by
  unfold State.boundary State.drift State.endPulse; split <;> split <;> simp_all
@[simp] theorem State.boundary_status (s : State) : s.boundary.status = s.status := by
  unfold State.boundary State.drift State.endPulse; split <;> split <;> simp_all
@[simp] theorem State.boundary_busy (s : State) : s.boundary.busy = s.busy := by
  unfold State.boundary State.drift State.endPulse; split <;> split <;> simp_all
@[simp] theorem State.boundary_cmd (s : State) : s.boundary.cmd = s.cmd := by
  unfold State.boundary State.drift State.endPulse; split <;> split <;> simp_all
@[simp] theorem State.boundary_slot (s : State) : s.boundary.slot = s.slot := by
  unfold State.boundary State.drift State.endPulse; split <;> split <;> simp_all
@[simp] theorem State.boundary_bit (s : State) : s.boundary.bit = s.bit := by
  unfold State.boundary State.drift State.endPulse; split <;> split <;> simp_all
@[simp] theorem State.boundary_phase (s : State) : s.boundary.phase = (if s.phase = .done then .idle else s.phase) := by
  unfold State.boundary State.drift State.endPulse; split <;> split <;> simp_all
@[simp] theorem State.boundary_buf (s : State) : s.boundary.buf = s.buf := by
  unfold State.boundary State.drift State.endPulse; split <;> split <;> simp_all
@[simp] theorem State.boundary_remain (s : State) : s.boundary.remain = s.remain := by
  unfold State.boundary State.drift State.endPulse; split <;> split <;> simp_all
@[simp] theorem State.boundary_hold (s : State) : s.boundary.hold = s.hold := by
  unfold State.boundary State.drift State.endPulse; split <;> split <;> simp_all
@[simp] theorem State.boundary_holdv (s : State) : s.boundary.holdv = s.holdv := by
  unfold State.boundary State.drift State.endPulse; split <;> split <;> simp_all
@[simp] theorem State.boundary_pendp (s : State) : s.boundary.pendp = s.pendp := by
  unfold State.boundary State.drift State.endPulse; split <;> split <;> simp_all
@[simp] theorem State.boundary_discard (s : State) : s.boundary.discard = s.discard := by
  unfold State.boundary State.drift State.endPulse; split <;> split <;> simp_all
@[simp] theorem State.boundary_cancelled (s : State) : s.boundary.cancelled = s.cancelled := by
  unfold State.boundary State.drift State.endPulse; split <;> split <;> simp_all
@[simp] theorem State.boundary_events (s : State) : s.boundary.events = s.events := by
  unfold State.boundary State.drift State.endPulse; split <;> split <;> simp_all
@[simp] theorem State.boundary_shift (s : State) : s.boundary.shift = (if s.driven then s.shift else freeChain s.draws s.shift.length) := by
  unfold State.boundary State.drift State.endPulse; split <;> split <;> simp_all
@[simp] theorem State.boundary_store (s : State) : s.boundary.store = (if s.driven then s.store else freeChain (s.draws + 1) s.store.length) := by
  unfold State.boundary State.drift State.endPulse; split <;> split <;> simp_all
@[simp] theorem State.boundary_words (s : State) : s.boundary.words = s.words := by
  unfold State.boundary State.drift State.endPulse; split <;> split <;> simp_all
@[simp] theorem State.boundary_inputs (s : State) : s.boundary.inputs = s.inputs := by
  unfold State.boundary State.drift State.endPulse; split <;> split <;> simp_all
@[simp] theorem State.boundary_stopwatch (s : State) : s.boundary.stopwatch = s.stopwatch := by
  unfold State.boundary State.drift State.endPulse; split <;> split <;> simp_all
@[simp] theorem State.boundary_draws (s : State) : s.boundary.draws = (if s.driven then s.draws else s.draws + 2) := by
  unfold State.boundary State.drift State.endPulse; split <;> split <;> simp_all
@[simp] theorem State.boundary_cfg (s : State) : s.boundary.cfg = s.cfg := by
  unfold State.boundary State.drift State.endPulse; split <;> split <;> simp_all

/-- The boundary does not look at what is asked from outside. -/
theorem State.boundary_with_inputs (s : State) (x : List Input) :
    ({ s with inputs := x } : State).boundary = { s.boundary with inputs := x } := by
  unfold State.boundary State.drift State.endPulse
  simp only
  split <;> split <;> simp_all

/-- A list of as many stages as asked for is taken as it is. -/
theorem stages_self (l : List Byte) : stages l.length l = l := by
  apply List.ext_getElem <;> simp [stages]
  intro i h; simp [h]

/-! ### `drive`: the registers and the chain, by line -/

@[simp] theorem State.drive_sck (s : State) (l : Line) (v : Bool) : (s.drive l v).sck = if l = .sck then v else s.sck := by
  cases l <;> rfl

@[simp] theorem State.drive_data (s : State) (l : Line) (v : Bool) :
    (s.drive l v).data = if l = .data then v else s.data := by
  cases l <;> rfl

@[simp] theorem State.drive_latch (s : State) (l : Line) (v : Bool) :
    (s.drive l v).latch = if l = .latch then v else s.latch := by
  cases l <;> rfl

@[simp] theorem State.drive_vis (s : State) (l : Line) (v : Bool) : (s.drive l v).vis = if l = .vis then v else s.vis := by
  cases l <;> rfl

/-- The chain shifts on a rising edge of SCK with the lines driven, and on nothing else. -/
theorem State.drive_shift (s : State) (l : Line) (v : Bool) :
    (s.drive l v).shift = if l = .sck ∧ v ∧ ¬ s.sck ∧ s.driven then shiftIn s.data s.shift else s.shift := by
  cases l <;> cases v <;> cases hs : s.sck <;> cases hd : s.driven <;> simp [State.drive, hs, hd]

/-- The chain stores on a rising edge of LATCH with the lines driven, and on nothing else. -/
theorem State.drive_store (s : State) (l : Line) (v : Bool) :
    (s.drive l v).store = if l = .latch ∧ v ∧ ¬ s.latch ∧ s.driven then s.shift else s.store := by
  cases l <;> cases v <;> cases hs : s.latch <;> cases hd : s.driven <;> simp [State.drive, hs, hd]

end Sys2Proof.Machine
end

