-- ==== Sys2Proof/Laws/Ops.lean ====
section
/-! SUPPORT. One lemma per shared operation that says all it does, with the lines driven. -/

namespace Sys2Proof.Machine

/-- The model's completion is the one the statements name. -/
theorem complete_eq_ended (s : State) (c : Code) : s.complete c = s.ended c.bits := rfl

theorem endRender_eq_ended (s : State) (c : Code) :
    s.endRender c = State.ended c.bits { s with hold := 0 } := rfl

/-- From an idle position, the end of a command changes only `STATUS` and the phase. -/
theorem ended_of_clear (s : State) (k : BitVec 3) (h1 : s.busy = false) (h2 : s.cmd = none) (h3 : s.transientsClear) :
    s.ended k = { s with status := k, phase := .done } := by
  obtain ⟨a, b, c, d, e, f⟩ := h3
  cases s; simp_all [State.ended]

/-- A bit cell with the lines driven: three events, SCK high, one capture. -/
theorem bitCell_eq (s : State) (b : Bool) (h : s.driven = true) :
    s.bitCell b = { s with
      sck := true, data := b, events := s.events ++ cellEvents b, shift := shiftIn b s.shift } := by
  simp [State.bitCell, State.drive, h, cellEvents]

/-- Bit cells in a row. -/
theorem bitCell_foldl (bs : List Bool) (s : State) (h : s.driven = true) :
    bs.foldl State.bitCell s = { s with
      sck := !bs.isEmpty || s.sck
      data := bs.getLast?.getD s.data
      events := s.events ++ bs.flatMap cellEvents
      shift := bs.foldl (fun l d => shiftIn d l) s.shift } := by
  induction bs generalizing s with
  | nil => simp
  | cons b bs ih =>
    rw [List.foldl_cons, bitCell_eq s b h, ih _ (by simpa using h)]
    cases bs <;> simp [List.getLast?_cons]

/-- A digit slot with the lines driven (R51, R77, R79). -/
theorem shiftOut_eq (s : State) (v : Byte) (h : s.driven = true) :
    s.shiftOut v = { s with
      buf := v, sck := true, data := v.getLsbD 0, events := s.events ++ slotEvents v
      shift := (v :: s.shift).dropLast } := by
  rw [State.shiftOut, bitCell_foldl _ _ (by simpa using h), shiftIn_foldl]
  simp [slotBits, slotEvents]

/-- The latch pulse with the lines driven (R58, R50). -/
theorem latchPulse_eq (s : State) (h : s.driven = true) :
    s.latchPulse = { s with
      latch := false, events := s.events ++ latchEvents, store := if s.latch then s.store else s.shift } := by
  cases hl : s.latch <;> simp [State.latchPulse, State.drive, h, hl, latchEvents]

theorem take_reverse_cons (v : Byte) (vs l : List Byte) :
    (vs.reverse ++ (v :: l).dropLast).take l.length = ((v :: vs).reverse ++ l).take l.length := by
  cases l with
  | nil => simp
  | cons b rest =>
    have : (v :: b :: rest).dropLast = (v :: b :: rest).take (b :: rest).length := by
      rw [List.dropLast_eq_take]; rfl
    rw [this, List.reverse_cons, List.append_assoc, List.singleton_append, List.take_append,
      List.take_append (l₁ := vs.reverse) (l₂ := v :: b :: rest), List.take_take]
    congr 2
    omega

/-- The state after slots sent with the lines driven. -/
def afterSlots (vs : List Byte) (s : State) : State :=
  { s with
    buf := vs.getLast?.getD s.buf
    sck := !vs.isEmpty || s.sck
    data := (vs.getLast?.map fun v => v.getLsbD 0).getD s.data
    events := s.events ++ vs.flatMap slotEvents
    shift := (vs.reverse ++ s.shift).take s.shift.length }

@[simp] theorem afterSlots_driven (vs : List Byte) (s : State) : (afterSlots vs s).driven = s.driven := rfl
@[simp] theorem afterSlots_cfg (vs : List Byte) (s : State) : (afterSlots vs s).cfg = s.cfg := rfl

theorem afterSlots_nil (s : State) : afterSlots [] s = s := by
  simp [afterSlots]

theorem afterSlots_cons (v : Byte) (vs : List Byte) (s : State) (h : s.driven = true) :
    afterSlots vs (s.shiftOut v) = afterSlots (v :: vs) s := by
  rw [shiftOut_eq s v h]
  have := take_reverse_cons v vs s.shift
  cases vs <;> simp_all [afterSlots, List.getLast?_cons]

/-- Slots that all resolve, in a row. -/
theorem shiftOut_foldl (vs : List Byte) (s : State) (h : s.driven = true) :
    vs.foldl (fun u v => State.shiftOut v u) s = afterSlots vs s := by
  induction vs generalizing s with
  | nil => simp [afterSlots_nil]
  | cons v vs ih =>
    rw [List.foldl_cons, ih _ (by simp [shiftOut_eq s v h, h]), afterSlots_cons v vs s h]

/-- The loop of RENDER passes the slots that resolve. -/
theorem sendSlots_append (before after : List Slot) (vs : List Byte) (s : State) (h : s.driven = true)
    (hv : before.map (fun x => resolveSlot s.cfg x.1 x.2) = vs.map some) :
    s.sendSlots (before ++ after) = (afterSlots vs s).sendSlots after := by
  induction before generalizing s vs with
  | nil => cases vs <;> simp_all [afterSlots_nil]
  | cons x before ih =>
    obtain ⟨c, p⟩ := x
    cases vs with
    | nil => simp at hv
    | cons v vs =>
      simp only [List.map_cons, List.cons.injEq] at hv
      have hs := shiftOut_eq s v h
      rw [List.cons_append, State.sendSlots, hv.1]
      simp only
      rw [ih vs (s.shiftOut v) (by simp [hs, h]) (by simpa [hs] using hv.2), afterSlots_cons v vs s h]

end Sys2Proof.Machine
end

