-- ==== Sys2Proof/Laws/Frames.lean ====
section
/-! SUPPORT. What the shared operations never change, whether or not the lines are driven (10_state R14, R17, R21, R25). -/

namespace Sys2Proof.Machine

/-- The parameters, the lines' ownership, VIS, the host's side and the recorded events stand. -/
structure Keeps (s t : State) : Prop where
  cfg : t.cfg = s.cfg
  driven : t.driven = s.driven
  vis : t.vis = s.vis
  cancelled : t.cancelled = s.cancelled
  words : t.words = s.words
  inputs : t.inputs = s.inputs
  stopwatch : t.stopwatch = s.stopwatch
  draws : t.draws = s.draws
  stages : t.shift.length = s.shift.length
  events : ∃ new, t.events = s.events ++ new

theorem Keeps.refl (s : State) : Keeps s s := ⟨rfl, rfl, rfl, rfl, rfl, rfl, rfl, rfl, rfl, [], by simp⟩

theorem Keeps.trans {s t u : State} (h : Keeps s t) (g : Keeps t u) : Keeps s u := by
  obtain ⟨m, hm⟩ := h.events
  obtain ⟨n, hn⟩ := g.events
  exact ⟨g.cfg.trans h.cfg, g.driven.trans h.driven, g.vis.trans h.vis, g.cancelled.trans h.cancelled,
    g.words.trans h.words, g.inputs.trans h.inputs, g.stopwatch.trans h.stopwatch, g.draws.trans h.draws,
    g.stages.trans h.stages, m ++ n, by rw [hn, hm, List.append_assoc]⟩

/-- A write of any line but VIS. -/
theorem Keeps.drive (s : State) (l : Line) (v : Bool) (h : l ≠ .vis) : Keeps s (s.drive l v) := by
  refine ⟨by simp, by simp, by simp [h], by simp, by simp, by simp, by simp, by simp, ?_, [⟨l, v⟩], by simp⟩
  rw [State.drive_shift]; split <;> simp

theorem Keeps.complete (s : State) (c : Code) : Keeps s (s.complete c) :=
  ⟨rfl, rfl, rfl, rfl, rfl, rfl, rfl, rfl, rfl, [], by simp⟩

theorem Keeps.endRender (s : State) (c : Code) : Keeps s (s.endRender c) :=
  ⟨rfl, rfl, rfl, rfl, rfl, rfl, rfl, rfl, rfl, [], by simp [State.endRender]⟩

theorem Keeps.bitCells (bs : List Bool) (s : State) : Keeps s (bs.foldl State.bitCell s) := by
  induction bs generalizing s with
  | nil => exact .refl s
  | cons b bs ih =>
    exact (((Keeps.drive s .sck false (by decide)).trans (.drive _ .data b (by decide))).trans
      (.drive _ .sck true (by decide))).trans (ih _)

theorem Keeps.shiftOut (s : State) (v : Byte) : Keeps s (s.shiftOut v) := by
  have h : Keeps s { s with buf := v } := ⟨rfl, rfl, rfl, rfl, rfl, rfl, rfl, rfl, rfl, [], by simp⟩
  exact h.trans (.bitCells _ _)

theorem Keeps.latchPulse (s : State) : Keeps s s.latchPulse :=
  (Keeps.drive s .latch true (by decide)).trans (.drive _ .latch false (by decide))

theorem Keeps.sendSlots (slots : List Slot) (s : State) : Keeps s (s.sendSlots slots) := by
  induction slots generalizing s with
  | nil => exact (Keeps.latchPulse s).trans (.endRender _ _)
  | cons x slots ih =>
    obtain ⟨c, p⟩ := x
    simp only [State.sendSlots]
    split
    · exact .endRender _ _
    · exact (Keeps.shiftOut s _).trans (ih _)

/-- RENDER's loop ends the command, on every path. -/
theorem sendSlots_busy (slots : List Slot) (s : State) : (s.sendSlots slots).busy = false := by
  induction slots generalizing s with
  | nil => rfl
  | cons x slots ih =>
    obtain ⟨c, p⟩ := x
    simp only [State.sendSlots]
    split
    · rfl
    · exact ih _

/-- Bit cells leave LATCH, `STORE`, `HOLD` and the position of the sequencer. -/
theorem bitCells_other (bs : List Bool) (s : State) :
    let t := bs.foldl State.bitCell s
    t.latch = s.latch ∧ t.store = s.store ∧ t.hold = s.hold ∧ t.buf = s.buf ∧ t.busy = s.busy ∧ t.cmd = s.cmd
      ∧ t.status = s.status ∧ t.remain = s.remain ∧ t.holdv = s.holdv ∧ t.slot = s.slot := by
  induction bs generalizing s with
  | nil => simp
  | cons b bs ih =>
    have h := ih (s.bitCell b)
    simpa [State.bitCell, State.drive_store] using h

end Sys2Proof.Machine
end

