-- ==== Sys2Proof/Laws/Payload.lean ====
section
/-! SUPPORT. The payload position of a RENDER and the operations CHARW is made of (10_state R23, 41_render R92). -/

namespace Sys2Proof.Machine

/-- What waiting for a payload word says. -/
theorem awaiting_elim {s : State} (h : s.awaiting = true) :
    s.busy = true ∧ s.phase = .lookup ∧ s.remain ≠ 0 ∧ ∃ len, s.cmd = some (.render len) := by
  simp only [State.awaiting, Bool.and_eq_true] at h
  obtain ⟨⟨⟨h1, h2⟩, h3⟩, h4⟩ := h
  refine ⟨h1, by simpa using h2, by simpa using h3, ?_⟩
  split at h4
  · rename_i l hl; exact ⟨l, hl⟩
  · cases h4

/-- Waiting for a payload word, from its parts. -/
theorem awaiting_intro {s : State} {len : Byte} (h1 : s.busy = true) (h2 : s.phase = .lookup) (h3 : s.remain ≠ 0)
    (h4 : s.cmd = some (.render len)) : s.awaiting = true := by
  have h3' : ¬ s.remain = 0#8 := h3
  simp [State.awaiting, h1, h2, h3', h4]

theorem not_awaiting_of_phase {s : State} (h : s.phase ≠ .lookup) : s.awaiting = false := by
  simp [State.awaiting, h]

theorem sub_one_eq_zero (r : Byte) : r - 1 = 0#8 ↔ r = 1#8 := by
  constructor
  · intro h; have := congrArg (· + 1#8) h; simpa using this
  · rintro rfl; rfl

theorem ofNat_succ_sub_one (n : Nat) (h : n + 1 ≤ 255) :
    BitVec.ofNat 8 (n + 1) ≠ 0 ∧ BitVec.ofNat 8 (n + 1) - 1 = BitVec.ofNat 8 n := by
  constructor
  · intro hh; have := congrArg BitVec.toNat hh; simp at this; omega
  · apply BitVec.eq_of_toNat_eq; simp; omega

/-- The lookup of a slot that has a value. -/
theorem beginSlot_of_some (s : State) (c : Byte) (p : Bool) (v : Byte) (h : resolveSlot s.cfg c p = some v) :
    s.beginSlot c p = { s with buf := v, bit := 7, phase := .clkLow, pendp := false } := by
  simp only [State.beginSlot, h]

/-- With something left to look up or to wait for, the next position is LOOKUP. -/
theorem nextSlot_eq_lookup (s : State) (h : s.remain ≠ 0 ∨ s.holdv = true) :
    s.nextSlot = { s with phase := .lookup } := by
  unfold State.nextSlot
  rw [if_neg]
  rintro ⟨a, b⟩
  rcases h with h | h
  · exact h a
  · simp [b] at h

/-- With nothing left, the next position is the latch pulse. -/
theorem nextSlot_eq_latch (s : State) (h1 : s.remain = 0) (h2 : s.holdv = false) :
    s.nextSlot = { s with phase := .latchHi } := by
  unfold State.nextSlot
  rw [if_pos ⟨h1, h2⟩]

/-- The boundary keeps the payload position. -/
theorem boundary_awaiting {s : State} (h : s.awaiting = true) : s.boundary.awaiting = true := by
  obtain ⟨hb, hp, hr, l, hc⟩ := awaiting_elim h
  exact awaiting_intro (len := l) (by simpa) (by simp [hp]) (by simpa using hr) (by simpa)

end Sys2Proof.Machine
end

