-- ==== Sys2Proof/Laws/Cycles.lean ====
section
/-! SUPPORT. Runs of cycles at the micro-step level: a bit cell is 3 cycles, a slot 24, a latch pulse 2 (00_scope section 6,
92_eei_decisions D1); how many of the cycles of a run are micro-steps (70_reset R157). -/

namespace Sys2Proof.Machine

/-- One cycle with a word presented, whatever is asked from outside later. -/
def Cycle (s t : State) : Prop :=
  ∀ x, ({ s with inputs := x } : State).clockCycle true = .next { t with inputs := x }

/-- A number of such cycles, the lines driven throughout. -/
inductive Cycles : Nat → State → State → Prop
  | none (s) : Cycles 0 s s
  | more (n s t u) : Cycle s t → s.driven = true → s.phase ≠ .done → Cycles n t u → Cycles (n + 1) s u

theorem Cycles.one {s t : State} (h : Cycle s t) (hd : s.driven = true) (hp : s.phase ≠ .done) : Cycles 1 s t :=
  .more 0 _ _ _ h hd hp (.none _)

theorem Cycles.append {m n : Nat} {s t u : State} (h : Cycles m s t) (g : Cycles n t u) : Cycles (m + n) s u := by
  induction h with
  | none s => simpa using g
  | more k s t' t a b c _ ih =>
    have := Cycles.more _ _ _ _ a b c (ih g)
    rwa [show k + 1 + n = k + n + 1 by omega]

/-- With the lines driven and no `done` pulse, the boundary does nothing. -/
theorem boundary_eq_self (s : State) (hd : s.driven = true) (hp : s.phase ≠ .done) : s.boundary = s := by
  simp [State.boundary, State.endPulse, hp, State.drift, hd]

/-- Such cycles as steps of the machine. -/
theorem Cycles.run {n : Nat} {s t : State} (h : Cycles n s t) :
    Sys2Proof.core.run n { s with inputs := List.replicate n (.clock true) } = .next { t with inputs := [] } := by
  induction h with
  | none s => rfl
  | more k s t u a b c _ ih =>
    have h1 : step { s with inputs := List.replicate (k + 1) (.clock true) }
        = .next { t with inputs := List.replicate k (.clock true) } := by
      simp only [step, State.transition]
      rw [boundary_eq_self _ (by exact b) (by exact c)]
      exact a _
    have h2 : ∀ s v : State, step s = .next v → Sys2Proof.core.run (k + 1) s = Sys2Proof.core.run k v := by
      intro s v h
      simp only [Host.Core.run, Sys2Proof.core, h]
    exact (h2 _ _ h1).trans ih

/-- A cycle of the command in progress is a micro-step. -/
theorem Cycle.of_microStep {s t : State} (hb : s.busy = true) (ha : s.awaiting = false)
    (h : ∀ x, ({ s with inputs := x } : State).microStep = .next { t with inputs := x }) : Cycle s t := by
  intro x
  have ha' : ({ s with inputs := x } : State).awaiting = false := ha
  unfold State.clockCycle
  rw [if_neg (by simp [ha']), if_pos hb]
  exact h x

/-- A bit cell, with its last micro-step as given. -/
theorem Cycles.bitCell (s t : State) (hb : s.busy = true) (hd : s.driven = true) (hp : s.phase = .clkLow)
    (h : ∀ x, ({ (s.drive .sck false).drive .data (s.buf.getLsbD s.bit) with
      phase := .clkHigh, inputs := x } : State).clkHighStep = .next { t with inputs := x }) : Cycles 3 s t := by
  refine .more 2 s { s.drive .sck false with phase := .setData } _ ?_ hd (by simp [hp]) ?_
  · apply Cycle.of_microStep hb (not_awaiting_of_phase (by simp [hp]))
    intro x; simp only [State.microStep, hp]; rfl
  refine .more 1 _ { (s.drive .sck false).drive .data (s.buf.getLsbD s.bit) with phase := .clkHigh } _ ?_ hd (by simp) ?_
  · refine Cycle.of_microStep ?_ ?_ ?_
    · exact hb
    · exact not_awaiting_of_phase (by simp)
    · exact fun x => rfl
  refine .one ?_ hd (by simp)
  refine Cycle.of_microStep ?_ ?_ ?_
  · exact hb
  · exact not_awaiting_of_phase (by simp)
  · exact h

/-- The state inside a slot after j of its bits. -/
def State.afterBits (s : State) (j : Nat) : State :=
  { ((slotBits s.buf).take j).foldl State.bitCell s with bit := Fin.ofNat 8 (7 - j), phase := .clkLow }

theorem Cycles.bits (s : State) (hb : s.busy = true) (hd : s.driven = true) (hp : s.phase = .clkLow) (hbit : s.bit = 7)
    (j : Nat) (hj : j ≤ 7) : Cycles (3 * j) s (s.afterBits j) := by
  induction j with
  | zero =>
    have : s.afterBits 0 = s := by cases s; simp_all [State.afterBits]
    rw [this]; exact .none s
  | succ j ih =>
    refine Cycles.append (ih (by omega)) (Cycles.bitCell _ _ ?_ ?_ rfl ?_)
    · exact (bitCells_other _ s).2.2.2.2.1.trans hb
    · exact (Keeps.bitCells _ s).driven.trans hd
    · intro x
      have k := (bitCells_other ((slotBits s.buf).take j) s).2.2.2.1
      have hl : j < (slotBits s.buf).length := by simp [slotBits]; omega
      have e2 : (Fin.ofNat 8 (7 - j)).val = 7 - j := by simp [Fin.ofNat]; omega
      have e1 : (slotBits s.buf).take (j + 1) = (slotBits s.buf).take j
          ++ [(((slotBits s.buf).take j).foldl State.bitCell s).buf.getLsbD (Fin.ofNat 8 (7 - j)).val] := by
        rw [← List.take_concat_get' _ _ hl, k, e2]
        congr 2
        have : j = 0 ∨ j = 1 ∨ j = 2 ∨ j = 3 ∨ j = 4 ∨ j = 5 ∨ j = 6 := by omega
        rcases this with rfl | rfl | rfl | rfl | rfl | rfl | rfl <;> rfl
      have e3 : Fin.ofNat 8 (7 - j) - 1 = Fin.ofNat 8 (7 - (j + 1)) ∧ Fin.ofNat 8 (7 - j) ≠ 0 := by
        have : j = 0 ∨ j = 1 ∨ j = 2 ∨ j = 3 ∨ j = 4 ∨ j = 5 ∨ j = 6 := by omega
        rcases this with rfl | rfl | rfl | rfl | rfl | rfl | rfl <;> decide
      unfold State.clkHighStep
      rw [if_neg (by exact e3.2)]
      rw [State.afterBits, State.afterBits, e1, List.foldl_append, ← e3.1]
      generalize ((slotBits s.buf).take j).foldl State.bitCell s = F
      rfl

/-- A slot, with its last micro-step as given. -/
theorem Cycles.slot (s t : State) (hb : s.busy = true) (hd : s.driven = true) (hp : s.phase = .clkLow) (hbit : s.bit = 7)
    (h : ∀ x, ({ ((s.afterBits 7).drive .sck false).drive .data (s.buf.getLsbD 0) with
      phase := .clkHigh, inputs := x } : State).clkHighStep = .next { t with inputs := x }) : Cycles 24 s t := by
  have k := (bitCells_other ((slotBits s.buf).take 7) s).2.2.2.1
  refine (Cycles.bits s hb hd hp hbit 7 (by omega)).append (Cycles.bitCell _ t ?_ ?_ rfl ?_)
  · exact (bitCells_other _ s).2.2.2.2.1.trans hb
  · exact (Keeps.bitCells _ s).driven.trans hd
  · have e : (s.afterBits 7).buf.getLsbD (s.afterBits 7).bit = s.buf.getLsbD 0 := by
      change (((slotBits s.buf).take 7).foldl State.bitCell s).buf.getLsbD 0 = _
      rw [k]
    rw [e]; exact h

/-- After its 8 cells a slot has been sent as one `shiftOut` sends it. -/
theorem afterBits_last (s : State) (x : List Input) :
    ({ ((s.afterBits 7).drive .sck false).drive .data (s.buf.getLsbD 0) with
        phase := .clkHigh, inputs := x } : State).drive .sck true
      = { s.shiftOut s.buf with bit := 0, phase := .clkHigh, inputs := x } := by
  have e : s.shiftOut s.buf
      = (((slotBits s.buf).take 7).foldl State.bitCell s).bitCell (s.buf.getLsbD 0) := rfl
  rw [e, State.afterBits]
  generalize ((slotBits s.buf).take 7).foldl State.bitCell s = F
  rfl

/-- SEND_DIGIT's slot, in 24 cycles (R77). -/
theorem Cycles.sendDigit_slot (s : State) (p : Bool) (c : Byte) (hb : s.busy = true) (hd : s.driven = true)
    (hp : s.phase = .clkLow) (hbit : s.bit = 7) (hc : s.cmd = some (.sendDigit p c)) :
    Cycles 24 s ((s.shiftOut s.buf).complete .ok) := by
  apply Cycles.slot s _ hb hd hp hbit
  intro x
  unfold State.clkHighStep
  rw [if_pos (by rfl)]
  have k := (bitCells_other ((slotBits s.buf).take 7) s).2.2.2.2.2.1
  have e : ({ ((s.afterBits 7).drive .sck false).drive .data (s.buf.getLsbD 0) with
      phase := .clkHigh, inputs := x } : State).cmd = s.cmd := k
  rw [e, hc, afterBits_last]
  rfl

/-- One slot of a RENDER, in 24 cycles (R83). -/
theorem Cycles.render_slot (s : State) (len : Byte) (hb : s.busy = true) (hd : s.driven = true)
    (hp : s.phase = .clkLow) (hbit : s.bit = 7) (hc : s.cmd = some (.render len)) :
    Cycles 24 s ({ s.shiftOut s.buf with slot := s.slot + 1, bit := 7 } : State).nextSlot := by
  apply Cycles.slot s _ hb hd hp hbit
  intro x
  unfold State.clkHighStep
  rw [if_pos (by rfl)]
  have k := (bitCells_other ((slotBits s.buf).take 7) s).2.2.2.2.2.1
  have e : ({ ((s.afterBits 7).drive .sck false).drive .data (s.buf.getLsbD 0) with
      phase := .clkHigh, inputs := x } : State).cmd = s.cmd := k
  rw [e, hc, afterBits_last]
  have hs : (s.shiftOut s.buf).slot = s.slot := rfl
  rw [← hs]
  generalize s.shiftOut s.buf = F
  simp only [State.nextSlot]
  split <;> rfl

/-- The latch pulse and the end of a RENDER, in 2 cycles (R58, R87). -/
theorem Cycles.latch_pulse (s : State) (hb : s.busy = true) (hd : s.driven = true) (hp : s.phase = .latchHi) :
    Cycles 2 s (s.latchPulse.endRender .ok) := by
  refine .more 1 s { s.drive .latch true with phase := .latchLo } _ ?_ hd (by simp [hp]) ?_
  · apply Cycle.of_microStep hb (not_awaiting_of_phase (by simp [hp]))
    intro x; simp only [State.microStep, hp]; rfl
  refine .one ?_ hd (by simp)
  refine Cycle.of_microStep ?_ ?_ ?_
  · exact hb
  · exact not_awaiting_of_phase (by simp)
  · exact fun x => rfl

/-- A step and those after it: one micro-step more if the position advances. -/
theorem microSteps_succ {s t : State} (n : Nat) (h : step s = .next t) :
    s.microSteps (n + 1) = (if t.position = s.boundary.position then 0 else 1) + t.microSteps n := by
  simp only [State.microSteps, h]

/-- No cycle is more than one micro-step (R156). -/
theorem microSteps_le (n : Nat) (s : State) : s.microSteps n ≤ n := by
  induction n generalizing s with
  | zero => exact Nat.le_refl _
  | succ n ih =>
    unfold State.microSteps
    split
    · rename_i t _
      have := ih t
      split <;> omega
    · omega
    · omega

/-- The cycles of a command are its micro-steps, but for the first transfer of a RENDER under `B_FOLD_PREV`. -/
theorem cycleBound_eq (v : Config.PointVariant) (i : Instr)
    (h : v = .bFoldPrev → ∀ (w : Word) (ws : List Word), i ≠ .render (w :: ws)) : i.cycleBound v = i.microStepBound := by
  unfold Instr.cycleBound
  split
  · exact absurd rfl (h rfl _ _)
  · rfl

/-- A state with other values in the registers that a RENDER clears when it ends. -/
def State.withTransients (s : State) (busy : Bool) (cmd : Option Header) (slot : Nat) (bit : Fin 8) (phase : Phase)
    (remain hold : Byte) (holdv pendp discard : Bool) : State :=
  { s with
    busy := busy, cmd := cmd, slot := slot, bit := bit, phase := phase, remain := remain, hold := hold
    holdv := holdv, pendp := pendp, discard := discard }

theorem shiftOut_withTransients (v : Byte) (s : State) (a b c d e f g h i j) :
    (s.withTransients a b c d e f g h i j).shiftOut v = (s.shiftOut v).withTransients a b c d e f g h i j := by
  have cells : ∀ (bs : List Bool) (s : State), bs.foldl State.bitCell (s.withTransients a b c d e f g h i j)
      = (bs.foldl State.bitCell s).withTransients a b c d e f g h i j := by
    intro bs
    induction bs with
    | nil => intro s; rfl
    | cons x bs ih => exact fun s => ih (s.bitCell x)
  exact cells _ { s with buf := v }

/-- RENDER's loop does not look at those registers. -/
theorem sendSlots_withTransients (slots : List Slot) (s : State) (a b c d e f g h i j) :
    (s.withTransients a b c d e f g h i j).sendSlots slots = s.sendSlots slots := by
  induction slots generalizing s with
  | nil => rfl
  | cons x slots ih =>
    obtain ⟨ch, p⟩ := x
    simp only [State.sendSlots]
    have hcfg : (s.withTransients a b c d e f g h i j).cfg = s.cfg := rfl
    rw [hcfg]
    split
    · rfl
    · rw [shiftOut_withTransients]; exact ih _

end Sys2Proof.Machine
end

