-- ==== Sys2Proof/Laws/Decode.lean ====
section
/-! SUPPORT. The decoder and the encoder of one command word, each as the inverse of the other. -/

namespace Sys2Proof

/-- The opcodes by the rows of R65. -/
theorem opcode_cases :
    ∀ o : BitVec 4, o = 0#4 ∨ o = 1#4 ∨ o = 2#4 ∨ o = 3#4 ∨ o = 4#4 ∨ o = 5#4
      ∨ (6#4 ≤ o ∧ o ≠ 1#4 ∧ o ≠ 2#4 ∧ o ≠ 3#4 ∧ o ≠ 4#4 ∧ o ≠ 5#4 ∧ o ≠ 0#4) := by decide

/-- Decoding the word of a header gives the header (R61 to R64). -/
theorem decodeHeader_encodeHeader (h : Header) : decodeHeader (encodeHeader h) = .ok h := by
  cases h with
  | sendDigit p c =>
    have h1 : opcode (encodeS p c) = 1#4 := by
      apply BitVec.eq_of_getLsbD_eq; intro i hi
      have : i = 0 ∨ i = 1 ∨ i = 2 ∨ i = 3 := by omega
      rcases this with rfl|rfl|rfl|rfl <;> cases p <;> simp [opcode, encodeS]
    have h2 : (encodeS p c).extractLsb' 9 3 = 0#3 := by
      apply BitVec.eq_of_getLsbD_eq; intro i hi
      have : i = 0 ∨ i = 1 ∨ i = 2 := by omega
      rcases this with rfl|rfl|rfl <;> cases p <;> simp [encodeS]
    have h3 : (encodeS p c).getLsbD 8 = p := by
      cases p <;> simp [encodeS]
    have h4 : lowByte (encodeS p c) = c := by
      apply BitVec.eq_of_getLsbD_eq; intro i hi
      have : i = 0 ∨ i = 1 ∨ i = 2 ∨ i = 3 ∨ i = 4 ∨ i = 5 ∨ i = 6 ∨ i = 7 := by omega
      rcases this with rfl|rfl|rfl|rfl|rfl|rfl|rfl|rfl <;> cases p <;> simp [lowByte, encodeS]
    rw [decodeHeader, encodeHeader, h1, if_pos (by rfl), if_pos h2, h3, h4]
  | render l =>
    have h1 : opcode (encodeR l) = 2#4 := by
      apply BitVec.eq_of_getLsbD_eq; intro i hi
      have : i = 0 ∨ i = 1 ∨ i = 2 ∨ i = 3 := by omega
      rcases this with rfl|rfl|rfl|rfl <;> simp [opcode, encodeR]
    have h2 : (encodeR l).extractLsb' 8 4 = 0#4 := by
      apply BitVec.eq_of_getLsbD_eq; intro i hi
      have : i = 0 ∨ i = 1 ∨ i = 2 ∨ i = 3:= by omega
      rcases this with rfl|rfl|rfl|rfl <;> simp [encodeR]
    have h4 : lowByte (encodeR l) = l := by
      apply BitVec.eq_of_getLsbD_eq; intro i hi
      have : i = 0 ∨ i = 1 ∨ i = 2 ∨ i = 3 ∨ i = 4 ∨ i = 5 ∨ i = 6 ∨ i = 7 := by omega
      rcases this with rfl|rfl|rfl|rfl|rfl|rfl|rfl|rfl <;> simp [lowByte, encodeR]
    rw [decodeHeader, encodeHeader, h1, if_neg (by decide), if_pos (by rfl), if_pos h2, h4]
  | enable => decide
  | disable => decide
  | shutdown => decide

/-- The bits of the opcode field. -/
theorem bit_of_opcode (w : Word) (o : BitVec 4) (h : opcode w = o) (k : Nat) (hk : k < 4) :
    w.getLsbD (12 + k) = o.getLsbD k := by
  rw [← h]; simp [opcode, hk]

/-- The bits of a field that is zero. -/
theorem bit_of_field (w : Word) (st n : Nat) (h : w.extractLsb' st n = 0#n) (k : Nat) (hk : k < n) :
    w.getLsbD (st + k) = false := by
  have := congrArg (fun x : BitVec n => x.getLsbD k) h
  simpa [hk] using this

/-- A word that decodes to a header is the word of that header: no bit of it is dropped. -/
theorem encodeHeader_of_decodeHeader (w : Word) (h : Header) (hd : decodeHeader w = .ok h) :
    encodeHeader h = w := by
  have zs := bit_of_field w
  rcases opcode_cases (opcode w) with ho | ho | ho | ho | ho | ho | ho
  · simp [decodeHeader, ho] at hd
  · have e0 := bit_of_opcode w _ ho 0 (by omega); have e1 := bit_of_opcode w _ ho 1 (by omega)
    have e2 := bit_of_opcode w _ ho 2 (by omega); have e3 := bit_of_opcode w _ ho 3 (by omega)
    by_cases hz : w.extractLsb' 9 3 = 0#3 <;> simp only [decodeHeader, ho, hz] at hd <;> simp at hd
    subst hd
    have z0 := zs _ _ hz 0 (by omega); have z1 := zs _ _ hz 1 (by omega); have z2 := zs _ _ hz 2 (by omega)
    apply BitVec.eq_of_getLsbD_eq; intro i hi
    have : i = 0 ∨ i = 1 ∨ i = 2 ∨ i = 3 ∨ i = 4 ∨ i = 5 ∨ i = 6 ∨ i = 7 ∨ i = 8 ∨ i = 9 ∨ i = 10 ∨ i = 11 ∨ i = 12 ∨ i = 13 ∨ i = 14 ∨ i = 15 := by omega
    simp at e0 e1 e2 e3 z0 z1 z2
    cases h8 : w[8] <;> rcases this with rfl|rfl|rfl|rfl|rfl|rfl|rfl|rfl|rfl|rfl|rfl|rfl|rfl|rfl|rfl|rfl <;> simp [encodeHeader, encodeS, lowByte, *]
  · have e0 := bit_of_opcode w _ ho 0 (by omega); have e1 := bit_of_opcode w _ ho 1 (by omega)
    have e2 := bit_of_opcode w _ ho 2 (by omega); have e3 := bit_of_opcode w _ ho 3 (by omega)
    by_cases hz : w.extractLsb' 8 4 = 0#4 <;> simp only [decodeHeader, ho, hz] at hd <;> simp at hd
    subst hd
    have z0 := zs _ _ hz 0 (by omega); have z1 := zs _ _ hz 1 (by omega); have z2 := zs _ _ hz 2 (by omega); have z3 := zs _ _ hz 3 (by omega)
    apply BitVec.eq_of_getLsbD_eq; intro i hi
    have : i = 0 ∨ i = 1 ∨ i = 2 ∨ i = 3 ∨ i = 4 ∨ i = 5 ∨ i = 6 ∨ i = 7 ∨ i = 8 ∨ i = 9 ∨ i = 10 ∨ i = 11 ∨ i = 12 ∨ i = 13 ∨ i = 14 ∨ i = 15 := by omega
    simp at e0 e1 e2 e3 z0 z1 z2 z3
    rcases this with rfl|rfl|rfl|rfl|rfl|rfl|rfl|rfl|rfl|rfl|rfl|rfl|rfl|rfl|rfl|rfl <;> simp [encodeHeader, encodeR, lowByte, *]
  iterate 3
    · have e0 := bit_of_opcode w _ ho 0 (by omega); have e1 := bit_of_opcode w _ ho 1 (by omega)
      have e2 := bit_of_opcode w _ ho 2 (by omega); have e3 := bit_of_opcode w _ ho 3 (by omega)
      by_cases hz : w.extractLsb' 0 12 = 0#12 <;> simp only [decodeHeader, ho, hz] at hd <;> simp at hd
      subst hd
      apply BitVec.eq_of_getLsbD_eq; intro i hi
      by_cases h12 : i < 12
      · have := zs _ _ hz i h12
        simp at this
        have : i = 0 ∨ i = 1 ∨ i = 2 ∨ i = 3 ∨ i = 4 ∨ i = 5 ∨ i = 6 ∨ i = 7 ∨ i = 8 ∨ i = 9 ∨ i = 10 ∨ i = 11 := by omega
        rcases this with rfl|rfl|rfl|rfl|rfl|rfl|rfl|rfl|rfl|rfl|rfl|rfl <;> simp_all [encodeHeader]
      · have : i = 12 ∨ i = 13 ∨ i = 14 ∨ i = 15 := by omega
        simp at e0 e1 e2 e3
        rcases this with rfl|rfl|rfl|rfl <;> simp_all [encodeHeader]
  · obtain ⟨h6, h1, h2, h3, h4, h5, h0⟩ := ho
    rw [decodeHeader, if_neg h1, if_neg h2, if_neg h3, if_neg h4, if_neg h5, if_neg h0] at hd
    cases hd

end Sys2Proof
end

