-- ==== Sys2Proof/Laws/Events.lean ====
section
/-! SUPPORT. Edges and levels of lists of events (00_scope section 5, 10_state R24). -/

namespace Sys2Proof.Machine

theorem levelAfter_append (l : Line) (a : Bool) (x y : List Event) :
    levelAfter l a (x ++ y) = levelAfter l (levelAfter l a x) y := by
  induction x generalizing a with
  | nil => rfl
  | cons e x ih => simp only [List.cons_append, levelAfter]; split <;> simp [ih]

theorem risingEdges_append (l : Line) (a : Bool) (x y : List Event) :
    risingEdges l a (x ++ y) = risingEdges l a x + risingEdges l (levelAfter l a x) y := by
  induction x generalizing a with
  | nil => simp [risingEdges, levelAfter]
  | cons e x ih => simp only [List.cons_append, risingEdges, levelAfter]; split <;> simp [ih, add_assoc]

/-- A slot makes 8 rising edges of SCK, from either level, and leaves LATCH alone. -/
theorem slotEvents_edges (v : Byte) (a : Bool) :
    risingEdges .sck a (slotEvents v) = 8 ∧ risingEdges .latch a (slotEvents v) = 0
      ∧ levelAfter .latch a (slotEvents v) = a ∧ (slotEvents v).length = 24 := by
  cases a <;> simp [slotEvents, slotBits, cellEvents, risingEdges, levelAfter]

/-- Slots in a row. -/
theorem slotEvents_flatMap_edges (vs : List Byte) (a : Bool) :
    risingEdges .sck a (vs.flatMap slotEvents) = 8 * vs.length
      ∧ risingEdges .latch a (vs.flatMap slotEvents) = 0
      ∧ levelAfter .latch a (vs.flatMap slotEvents) = a
      ∧ (vs.flatMap slotEvents).length = 24 * vs.length := by
  induction vs generalizing a with
  | nil => exact ⟨rfl, rfl, rfl, rfl⟩
  | cons v vs ih =>
    obtain ⟨h1, h2, h3, h4⟩ := slotEvents_edges v a
    rw [List.flatMap_cons, risingEdges_append, risingEdges_append, levelAfter_append, List.length_append,
      (ih _).1, (ih _).2.1, (ih _).2.2.1, (ih a).2.2.2, h1, h2, h3, h4, List.length_cons]
    exact ⟨by omega, rfl, rfl, by omega⟩

end Sys2Proof.Machine
end

