-- ==== Sys2Proof/Laws/Invariant.lean ====
section
/-! SUPPORT. The parts of the invariant that the shared operations keep, and the invariant at the end of a command. -/

namespace Sys2Proof.Machine

/-- The part of the invariant that does not speak of the sequencer's position. -/
structure State.Base (s : State) : Prop where
  statusLegal : s.status.toNat ≤ 4
  lines : s.linesMatchEvents
  releasedBlank : s.releasedBlank
  cancelledReleased : s.cancelled = true → s.driven = false
  chain : s.chainShape

theorem State.Inv.base {s : State} (h : s.Inv) : s.Base := ⟨h.1, h.4, h.6, h.7, h.8⟩

/-- While the lines are driven, LATCH is high only between the two writes of a latch pulse. -/
theorem State.Inv.latch_eq_false {s : State} (h : s.Inv) (hd : s.driven = true) (hp : s.phase ≠ .latchLo) :
    s.latch = false := by
  by_contra hl
  rcases h.latchLow (by simpa using hl) with h1 | h1
  · exact hp h1
  · simpa [hd] using h.cancelledReleased h1

/-- `Base` looks at these fields alone. -/
theorem State.Base.congr {s t : State} (h : s.Base) (status : t.status.toNat ≤ 4) (sck : t.sck = s.sck)
    (data : t.data = s.data) (latch : t.latch = s.latch) (vis : t.vis = s.vis) (events : t.events = s.events)
    (driven : t.driven = s.driven) (cancelled : t.cancelled = s.cancelled) (shift : t.shift = s.shift)
    (store : t.store = s.store) : t.Base := by
  obtain ⟨_, h2, h3, h4, h5⟩ := h
  refine ⟨status, ?_, ?_, ?_, ?_⟩
  · unfold State.linesMatchEvents; rw [sck, data, latch, vis, events]; exact h2
  · unfold State.releasedBlank; rw [vis, events, driven]; exact h3
  · rw [driven, cancelled]; exact h4
  · unfold State.chainShape; rw [shift, store]; exact h5

/-- A write keeps `Base` while the lines are driven. -/
theorem State.Base.drive {s : State} (h : s.Base) (l : Line) (v : Bool) (hd : s.driven = true) : (s.drive l v).Base := by
  obtain ⟨h1, ⟨a, b, c, d⟩, h3, h4, h5, h6⟩ := h
  refine ⟨by simpa, ⟨?_, ?_, ?_, ?_⟩, ?_, by simpa using h4, ?_⟩
  · simp only [State.drive_sck, State.drive_events, levelAfter_append, levelAfter]
    split
    · rfl
    · exact a
  · simp only [State.drive_data, State.drive_events, levelAfter_append, levelAfter]
    split
    · rfl
    · exact b
  · simp only [State.drive_latch, State.drive_events, levelAfter_append, levelAfter]
    split
    · rfl
    · exact c
  · simp only [State.drive_vis, State.drive_events, levelAfter_append, levelAfter]
    split
    · rfl
    · exact d
  · intro h; simp [hd] at h
  · clear a b c d
    simp only [State.chainShape, State.drive_shift, State.drive_store]
    (repeat' split) <;> simp_all

theorem Code.bits_le (c : Code) : c.bits.toNat ≤ 4 := by cases c <;> decide

theorem State.Base.complete {s : State} (h : s.Base) (c : Code) : (s.complete c).Base :=
  h.congr c.bits_le rfl rfl rfl rfl rfl rfl rfl rfl rfl

theorem State.Base.release {s : State} (h : s.Base) : s.release.Base := by
  unfold State.release
  split
  · rename_i hd
    obtain ⟨a, b, c, d, e⟩ := h.drive .vis false hd
    refine ⟨a, b, ?_, fun _ => rfl, e⟩
    intro _; right; simp
  · exact h

theorem State.Base.bitCells {s : State} (h : s.Base) (hd : s.driven = true) (bs : List Bool) :
    (bs.foldl State.bitCell s).Base := by
  induction bs generalizing s with
  | nil => exact h
  | cons b bs ih =>
    exact ih (((h.drive _ _ hd).drive _ _ (by simpa)).drive _ _ (by simpa)) (by simp [State.bitCell, hd])

theorem State.Base.shiftOut {s : State} (h : s.Base) (hd : s.driven = true) (v : Byte) : (s.shiftOut v).Base :=
  (h.congr (t := { s with buf := v }) h.1 rfl rfl rfl rfl rfl rfl rfl rfl rfl).bitCells hd _

/-- An idle state keeps the invariant. -/
theorem State.Base.inv_of_idle {s : State} (h : s.Base) (busy : s.busy = false) (cmd : s.cmd = none)
    (clear : s.transientsClear) (phase : s.phase = .idle ∨ s.phase = .done) (latch : s.latch = true → s.cancelled = true) :
    s.Inv := by
  refine ⟨h.1, ?_, fun _ => clear, h.2, fun hl => .inr (latch hl), h.3, h.4, h.5⟩
  rcases phase with hp | hp <;> simp [State.positionLegal, hp, cmd, busy]

/-- The end of a command keeps the invariant. -/
theorem State.Base.inv_complete {s : State} (h : s.Base) (c : Code) (latch : s.latch = true → s.cancelled = true) :
    (s.complete c).Inv :=
  (h.complete c).inv_of_idle rfl rfl ⟨rfl, rfl, rfl, rfl, rfl, rfl⟩ (.inr rfl) latch

theorem State.Base.inv_endRender {s : State} (h : s.Base) (c : Code) (latch : s.latch = true → s.cancelled = true) :
    (s.endRender c).Inv :=
  (h.congr (t := { s with hold := 0 }) h.1 rfl rfl rfl rfl rfl rfl rfl rfl rfl).inv_complete c latch

end Sys2Proof.Machine
end

