-- ==== Sys2Proof/Laws/Operands.lean ====
section
/-! SUPPORT. Lookups, slot lists and the digits of the Stopwatch (20_memory R39, 41_render R84 to R86, 45_host R106). -/

namespace Sys2Proof.Machine

/-- A slot whose character is supported has the value of R76. -/
theorem resolveSlot_of_index (p : Config.Params) (c : Byte) (b : Bool) (i : Fin 16) (h : charIndex c = some i) :
    resolveSlot p c b = some (p.glyph[i] ||| (if b then 0x08 else 0x00)) := by
  simp [resolveSlot, lookupGlyph, h, romRead, slotValue, pointMask]

/-- A slot fails exactly when its character is not supported. -/
theorem resolveSlot_eq_none (p : Config.Params) (c : Byte) (b : Bool) :
    resolveSlot p c b = none ↔ charIndex c = none := by
  simp [resolveSlot, lookupGlyph]

/-- Slots of supported characters all have values. -/
theorem exists_slot_values (p : Config.Params) (slots : List Slot) (h : ∀ x ∈ slots, charIndex x.1 ≠ none) :
    ∃ vs : List Byte, slots.map (fun x => resolveSlot p x.1 x.2) = vs.map some := by
  induction slots with
  | nil => exact ⟨[], rfl⟩
  | cons x slots ih =>
    obtain ⟨vs, hv⟩ := ih (fun y hy => h y (by simp [hy]))
    obtain ⟨i, hi⟩ := Option.ne_none_iff_exists'.1 (h x (by simp))
    exact ⟨_ :: vs, by rw [List.map_cons, List.map_cons, hv, resolveSlot_of_index _ _ _ _ hi]⟩

theorem slotsNextFrom_length_le (f : List Byte) (p : Bool) : (slotsNextFrom p f).length ≤ f.length := by
  induction f generalizing p with
  | nil => simp [slotsNextFrom]
  | cons a f ih => simp only [slotsNextFrom]; split <;> simp <;> [have := ih true; have := ih false] <;> omega

theorem slotsPrev_length_le (f : List Byte) : (slotsPrev f).length ≤ f.length := by
  induction f using slotsPrev.induct with
  | case1 => simp [slotsPrev]
  | case2 => simp [slotsPrev]
  | case3 c rest ih => simp [slotsPrev]; omega
  | case4 c d rest h ih => simp [slotsPrev, h] at *; omega

/-- A frame has at most one slot a character, whatever the variant. -/
theorem slotsOf_length_le (v : Config.PointVariant) (f : List Byte) : (slotsOf v f).length ≤ f.length := by
  cases v
  · simp [slotsOf, slotsA]
  · exact slotsPrev_length_le f
  · exact slotsNextFrom_length_le f false

/-- A frame of points alone has no slot under `B_FOLD_NEXT`. -/
theorem slotsNextFrom_points (f : List Byte) (p : Bool) (h : ∀ c ∈ f, c = pointChar) : slotsNextFrom p f = [] := by
  induction f generalizing p with
  | nil => rfl
  | cons a f ih => simp at h; simp [slotsNextFrom, h.1]; exact ih _ h.2

/-- A character code put into a payload word is read back (R63). -/
theorem payloadChar_setWidth (c : Byte) : payloadChar (c.setWidth 16) = c := by
  have h1 : (c.setWidth 16).extractLsb' 8 8 = 0#8 := by
    apply BitVec.eq_of_getLsbD_eq; intro i hi; simp
  have h2 : (c.setWidth 16).extractLsb' 0 8 = c := by
    apply BitVec.eq_of_getLsbD_eq; intro i hi; simp [hi]; omega
  rw [payloadChar, if_pos h1, h2]

/-- A digit's character is supported and is not the point. -/
theorem digitChar_supported (k : Nat) (h : k ≤ 9) :
    digitChar k = BitVec.ofNat 8 (0x30 + k) ∧ charIndex (digitChar k) ≠ none ∧ digitChar k ≠ pointChar := by
  have all : ∀ k : Fin 10, digitChar k.val = BitVec.ofNat 8 (0x30 + k.val) ∧ charIndex (digitChar k.val) ≠ none
      ∧ digitChar k.val ≠ pointChar := by decide
  exact all ⟨k, by omega⟩

end Sys2Proof.Machine
end

