-- ==== Sys2Proof/Laws/PerInstr.lean ====
section
/-! SUPPORT. Statements for all instructions, one lemma a constructor: the length of an encoding (30_encoding R68). -/

namespace Sys2Proof.Laws.EncodedLength

/-- The encoding of an instruction has as many words as R68 gives it. -/
def Statement (i : Instr) : Prop := (encode i).length = i.wordCount

theorem sendDigit (point : Bool) (char : Byte) : Statement (.sendDigit point char) := rfl

theorem render (frame : List Word) : Statement (.render frame) := Nat.add_comm frame.length 1

theorem enable : Statement .enable := rfl

theorem disable : Statement .disable := rfl

theorem shutdown : Statement .shutdown := rfl

theorem charw (word : Word) : Statement (.charw word) := rfl

end Sys2Proof.Laws.EncodedLength
end

