-- ==== Sys2Proof/Tests/Slice0.lean ====
section
/-! SUPPORT. The model's own tests. Expected results are those of spec/ (95_test_vectors, with its reference glyph table and
4 stages), or worked out by hand from a rule; each name says which. The witnesses at the end meet the hypotheses of the
statements, clause by clause. -/

namespace Sys2Proof.Tests

open Sys2Proof.Machine

/-! ### Helpers -/

/-- The state of the vectors: after reset, with the reference glyphs, 4 stages, and a variant. -/
def board (v : Config.PointVariant) : State :=
  { State.reset with
    shift := [0x77, 0x77, 0x77, 0x77], store := [0x77, 0x77, 0x77, 0x77]
    cfg := { glyph := Config.glyphRef, pointVariant := v, oeActiveLow := true, platformHoldsBlank := true } }

/-- The same, visible. -/
def lit (v : Config.PointVariant) : State := { board v with vis := true }

/-- The same, with its lines released. -/
def released : State := { board .aStandalone with driven := false }

/-- Inside a RENDER, waiting for a payload word, with as many still to come as said. -/
def waiting (v : Config.PointVariant) (n : Byte) : State :=
  { lit v with busy := true, cmd := some (.render 9), bit := 7, phase := .lookup, remain := n }

/-- Inside the last bit cell but one of a slot of a RENDER with one payload word to come. -/
def sending : State := { waiting .aStandalone 1 with phase := .clkHigh, bit := 1, buf := 0xB3 }

/-- The next state, if there is one. -/
def next? (o : Host.Outcome State Fault Refusal) : Option State :=
  match o with
  | .next t => some t
  | .fault _ => none
  | .refused _ => none

/-- What most vectors give. -/
structure Shown where
  sck : Bool
  data : Bool
  latch : Bool
  vis : Bool
  driven : Bool
  status : BitVec 3
  /-- The number of events, `ev`. -/
  ev : Nat
  shift : Nat
  store : Nat
deriving DecidableEq, Repr

/-- A state as the vectors show it. -/
def shown (t : State) : Shown :=
  { sck := t.sck, data := t.data, latch := t.latch, vis := t.vis, driven := t.driven, status := t.status
    ev := t.events.length, shift := chainValue t.shift, store := chainValue t.store }

/-- The outcome as the vectors show it, none if there is no next state. -/
def outcome (o : Host.Outcome State Fault Refusal) : Option Shown := (next? o).map shown

/-! ### Well-formedness -/

/-- R69: a frame of 255 is accepted, one of 256 refused. -/
theorem test_wellFormed :
    (Instr.render (List.replicate 255 0x0038)).wellFormed = true
      ∧ (Instr.render (List.replicate 256 0x0038)).wellFormed = false := by
  simp only [Instr.wellFormed, List.length_replicate]
  decide

/-! ### Decoding: words written out from R61 to R64 -/

theorem test_decode_sendDigit :
    decode [0b0001000100110001] = .ok (.sendDigit true 0x31, [])
      ∧ decode [0b0001000011111111] = .ok (.sendDigit false 0xFF, []) := by decide

theorem test_decode_render :
    decode [0b0010000000000010, 0b0101000000000000, 0b0000000000110000, 0x3000]
      = .ok (.render [0x5000, 0x0030], [0x3000])
      ∧ decode [0b0010000000000000] = .ok (.render [], []) := by decide

theorem test_decode_enable : decode [0b0011000000000000] = .ok (.enable, []) := by decide

theorem test_decode_disable : decode [0b0100000000000000] = .ok (.disable, []) := by decide

theorem test_decode_shutdown : decode [0b0101000000000000] = .ok (.shutdown, []) := by decide

theorem test_decode_charw : decodeTableWord 16 0b0000000000110001 = some (.charw 0x0031) := by decide

/-- T10: illegal words, by the reason. -/
theorem test_decode_illegal :
    decode [0x0030] = .error .payloadOpcode ∧ decode [0x1E30] = .error .reservedBits
      ∧ decode [0x2100] = .error .reservedBits ∧ decode [0x3001] = .error .reservedBits
      ∧ decode [0x4800] = .error .reservedBits ∧ decode [0x5FFF] = .error .reservedBits
      ∧ decode [0x6000] = .error .reservedOpcode ∧ decode [0xF000] = .error .reservedOpcode := by decide

/-- R72: a RENDER with a payload word missing is not a command yet. -/
theorem test_decode_missing : decode [0x2002, 0x0031] = .error .missingPayload := by decide

/-! ### SEND_DIGIT -/

/-- T1: `SEND_DIGIT '1', point` puts 0x0E into stage 0. -/
theorem test_sendDigit_T1 :
    outcome (exec (.sendDigit true 0x31) (board .aStandalone))
      = some ⟨true, false, false, false, true, 0, 24, 0x7777770E, 0x77777777⟩ := by decide

/-- T4: 'X' fails with LOOKUP_ERROR and no event. -/
theorem test_sendDigit_T4 :
    outcome (exec (.sendDigit false 0x58) (board .aStandalone))
      = some ⟨false, false, false, false, true, 1, 0, 0x77777777, 0x77777777⟩ := by decide

/-! ### RENDER -/

/-- T20: "23 5" under `A_STANDALONE`; P2: "01.01" under `B_FOLD_PREV` and under `B_FOLD_NEXT`. -/
theorem test_render_T20_P2 :
    outcome (exec (.render [0x0032, 0x0033, 0x0020, 0x0035]) (board .aStandalone))
        = some ⟨true, true, false, false, true, 0, 98, 0xB39700D5, 0xB39700D5⟩
      ∧ outcome (exec (.render [0x0030, 0x0031, 0x002E, 0x0030, 0x0031]) (board .bFoldPrev))
        = some ⟨true, false, false, false, true, 0, 98, 0x770E7706, 0x770E7706⟩
      ∧ outcome (exec (.render [0x0030, 0x0031, 0x002E, 0x0030, 0x0031]) (board .bFoldNext))
        = some ⟨true, false, false, false, true, 0, 98, 0x77067F06, 0x77067F06⟩ := by decide +kernel

/-- T40: "12X4" stops at slot 2 with no latch pulse. -/
theorem test_render_T40 :
    outcome (exec (.render [0x0031, 0x0032, 0x0058, 0x0034]) (board .bFoldNext))
      = some ⟨true, true, false, false, true, 1, 48, 0x777706B3, 0x77777777⟩ := by decide

/-! ### ENABLE, DISABLE, SHUTDOWN -/

/-- T50. -/
theorem test_enable_T50 :
    outcome (exec .enable (board .aStandalone))
      = some ⟨false, false, false, true, true, 0, 1, 0x77777777, 0x77777777⟩ := by decide

/-- T58: with the lines released ENABLE fails. -/
theorem test_enable_T58 :
    outcome (exec .enable released)
      = some ⟨false, false, false, false, false, 2, 0, 0x77777777, 0x77777777⟩ := by decide

/-- T53. -/
theorem test_disable_T53 :
    outcome (exec .disable (lit .aStandalone))
      = some ⟨false, false, false, false, true, 0, 1, 0x77777777, 0x77777777⟩ := by decide

/-- T50, T53: the pad of an active-low output enable. -/
theorem test_pad : (lit .aStandalone).oePort = some false ∧ (board .aStandalone).oePort = some true := by decide

/-- T55: SHUTDOWN blanks and releases. -/
theorem test_shutdown_T55 :
    outcome (exec .shutdown (lit .aStandalone))
      = some ⟨false, false, false, false, false, 0, 1, 0x77777777, 0x77777777⟩ := by decide

/-- T57: SHUTDOWN succeeds with the lines released, with no event. -/
theorem test_shutdown_T57 :
    outcome (exec .shutdown released)
      = some ⟨false, false, false, false, false, 0, 0, 0x77777777, 0x77777777⟩ := by decide

/-! ### CHARW -/

/-- T11: inside a RENDER of two words, 0x5000 is no SHUTDOWN but a character that fails its lookup. -/
theorem test_charw_T11 :
    (next? (exec (.charw 0x5000) (waiting .aStandalone 2))).map (fun t => (t.driven, t.remain, t.discard))
      = some (true, 1, true) := by decide

/-- T10: 0x0030 in command position is an illegal command. -/
theorem test_charw_T10 :
    outcome (exec (.charw 0x0030) (lit .aStandalone))
      = some ⟨false, false, false, true, true, 3, 0, 0x77777777, 0x77777777⟩ := by decide

/-! ### The step -/

/-- T10: 0x2F04 is illegal and is consumed alone; the words after it are not payload. -/
theorem test_step_illegal :
    (next? (step { lit .aStandalone with words := [0x2F04, 0x3000] })).map (fun t => (t.status, t.words))
      = some (3, [0x3000]) := by decide

/-- T63: `cancel` between the two writes of a latch pulse leaves LATCH high. -/
theorem test_step_cancel_T63 :
    outcome (step { waiting .aStandalone 0 with phase := .latchLo, latch := true, sck := true, inputs := [.cancel] })
      = some ⟨true, false, true, false, false, 4, 1, 0x77777777, 0x77777777⟩ := by decide

/-- T72, T73: a reset drops the command with no write, keeps the chain, and draws the lines' ownership. -/
theorem test_step_reset_T72_T73 :
    outcome (step { sending with
        inputs := [.reset { acquireOk := false, resetVis := true, buf := 0, hold := 0 }] })
      = some ⟨false, false, false, true, false, 2, 0, 0x77777777, 0x77777777⟩ := by decide

/-- R49, R77: the third write of a bit cell at the micro-step level captures one bit. -/
theorem test_step_clock :
    outcome (step { sending with data := true, inputs := [.clock true] })
      = some ⟨true, true, false, true, true, 0, 1, 0xEEEEEEEF, 0x77777777⟩ := by decide

/-- R156, R157: acceptance and the LOOKUP of a slot are a micro-step each; under `B_FOLD_PREV` the transfer of the first
payload word is none. -/
theorem test_microSteps :
    let two (v : Config.PointVariant) : State :=
      { board v with words := [0x2001, 0x0031], inputs := [.clock true, .clock true] }
    (two .aStandalone).microSteps 2 = 2 ∧ (two .bFoldPrev).microSteps 2 = 1 := by decide

/-- A word placed for the next step is executed by it: ENABLE, and a payload word of '1'. -/
theorem test_withFetchWord :
    (next? (step ((board .aStandalone).withFetchWord 16 0x3000))).map (fun t => (t.vis, t.status)) = some (true, 0)
      ∧ (next? (step ((board .aStandalone).withFetchWord 16 0x0031))).map (fun t => (t.buf, t.phase))
        = some (0x06, .clkLow) := by decide

/-! ### The Stopwatch -/

/-- H6 to H7: exactly 60 s later the seconds value is equal, the indicator is kept and the minutes carry. -/
theorem test_stopwatch_H7 :
    (Stopwatch.update 164 (Stopwatch.update 104 (Stopwatch.construct 100))) = ⟨100, 1, 4, true⟩ := by decide +kernel

/-- H11: a clock that goes back clamps to zero and keeps the indicator and the start instant. -/
theorem test_stopwatch_H11 : Stopwatch.update 99 ⟨100, 1, 4, true⟩ = ⟨100, 0, 0, true⟩ := by decide

/-- H8 and H16: "01.01" at 61 s; no frame at 100 minutes. -/
theorem test_stopwatch_frames :
    Stopwatch.frame ⟨0, 1, 1, true⟩ = some [0x30, 0x31, 0x2E, 0x30, 0x31]
      ∧ Stopwatch.frame ⟨0, 99, 59, true⟩ = some [0x39, 0x39, 0x2E, 0x35, 0x39]
      ∧ Stopwatch.frame ⟨0, 100, 0, false⟩ = none := by decide

/-! ### Witnesses: concrete values that meet the hypotheses of each statement -/

theorem board_inv (v : Config.PointVariant) : (board v).Inv where
  statusLegal := Nat.zero_le _
  position := rfl
  clear := fun _ => ⟨rfl, rfl, rfl, rfl, rfl, rfl⟩
  lines := ⟨rfl, rfl, rfl, rfl⟩
  latchLow := fun h => by cases h
  releasedBlank := fun _ => .inl rfl
  cancelledReleased := fun h => by cases h
  chain := ⟨Nat.succ_pos _, rfl⟩

/-- DecodeOfEncodeIsTheInstruction, at the longest frame, and for a payload word. -/
theorem witness_decode_encode :
    (Instr.render (List.replicate 255 0x002E)).wellFormed = true
      ∧ (Instr.render (List.replicate 255 0x002E)).header ≠ none
      ∧ (0x00FF : Word).extractLsb' 8 8 = 0#8 := by
  simp only [Instr.wellFormed, Instr.header, List.length_replicate]
  decide

/-- DecodedWordsAreTheEncoding. -/
theorem witness_decoded_words : decode [0x2001, 0x0031, 0x3000] = .ok (.render [0x0031], [0x3000]) := by decide

/-- PayloadWordNamesItsCharacter: each clause at its boundary; PointInjectionSetsBitThreeOnly: the last index. -/
theorem witness_payload_word :
    (0x00FF : Word).extractLsb' 8 8 = 0#8 ∧ (0x0100 : Word).extractLsb' 8 8 ≠ 0#8 ∧ 7 < 8 := by decide

/-- SendDigitSendsOneSlot, SendDigitEdgeCounts, SlotRoundTrip, NoPointBitLeakage, and the third clause of
SendDigitExceptions: the first and the last ROM index. -/
theorem witness_sendDigit :
    (board .aStandalone).busy = false ∧ (board .aStandalone).driven = true ∧ (board .aStandalone).shift ≠ []
      ∧ charIndex 0x20 = some 0 ∧ charIndex 0x43 = some 15 := by decide

/-- SendDigitExceptions: the first two clauses, with codes beside the supported ones. -/
theorem witness_sendDigit_exceptions :
    released.busy = false ∧ released.driven = false ∧ (board .aStandalone).cmd = none ∧ released.cmd = none
      ∧ charIndex 0x2F = none ∧ charIndex 0x3A = none := by decide

/-- ChainCapturesOnRisingClock: a rising edge, and SCK already high; ChainStoresOnRisingLatch is an if. -/
theorem witness_chain :
    (board .aStandalone).sck = false ∧ (board .aStandalone).driven = true
      ∧ ({ board .aStandalone with sck := true } : State).sck ≠ false := by decide

/-- ChainClosedForm: more slots than stages, as many, and fewer; DisplayShowsTheStoredStage: the last digit and the first
beyond it. -/
theorem witness_closed_form :
    (board .aStandalone).driven = true
      ∧ (board .aStandalone).shift.length ≤ [(1 : Byte), 2, 3, 4].length
      ∧ [(1 : Byte), 2, 3].length < (board .aStandalone).shift.length
      ∧ (board .aStandalone).store[3]? = some 0x77 ∧ (board .aStandalone).store.length ≤ 4 := by decide

/-- RenderSendsSlotsThenLatches and the first clause of RenderCountLaw. -/
theorem witness_render :
    let s := board .bFoldNext
    let slots := slotsOf s.cfg.pointVariant (([0x0039, 0x002E, 0x0039] : List Word).map payloadChar)
    s.busy = false ∧ s.driven = true ∧ s.latch = false
      ∧ slots.map (fun x => resolveSlot s.cfg x.1 x.2) = ([0xD7, 0xDF] : List Byte).map some
      ∧ (∀ x ∈ slots, charIndex x.1 ≠ none) ∧ ([0x0039, 0x002E, 0x0039] : List Word).length ≤ 255 := by
  refine ⟨rfl, rfl, rfl, rfl, ?_, by decide⟩
  exact List.forall_mem_cons.2 ⟨by decide, List.forall_mem_cons.2 ⟨by decide, List.forall_mem_nil _⟩⟩

/-- RenderStopsAtFirstUnsupported and the second clause of RenderCountLaw (T44 under `B_FOLD_PREV`: slot 1 is 'X' with the
point). -/
theorem witness_render_stops :
    let s := board .bFoldPrev
    let slots := slotsOf s.cfg.pointVariant (([0x0031, 0x0058, 0x002E] : List Word).map payloadChar)
    s.busy = false ∧ s.driven = true ∧ slots = [(0x31, false)] ++ (0x58, true) :: []
      ∧ [((0x31 : Byte), false)].map (fun x => resolveSlot s.cfg x.1 x.2) = ([0x06] : List Byte).map some
      ∧ charIndex 0x58 = none ∧ slots[1]? = some (0x58, true)
      ∧ ∀ x ∈ slots.take 1, charIndex x.1 ≠ none :=
  ⟨rfl, rfl, rfl, rfl, rfl, rfl, List.forall_mem_cons.2 ⟨by decide, List.forall_mem_nil _⟩⟩

/-- SendDigitExceptions, EmptyFrameOnlyLatches, ShutdownIsIdempotent, IllegalWordIsConsumedAlone: an idle position. -/
theorem witness_clear (v : Config.PointVariant) : (board v).cmd = none ∧ (board v).transientsClear ∧ released.transientsClear
    ∧ (lit v).transientsClear :=
  ⟨rfl, ⟨rfl, rfl, rfl, rfl, rfl, rfl⟩, ⟨rfl, rfl, rfl, rfl, rfl, rfl⟩, rfl, rfl, rfl, rfl, rfl, rfl⟩

/-- EmptyFrameOnlyLatches: both kinds of frame (T21, T29); the third clause of RenderCountLaw is `released`. -/
theorem witness_empty_frame :
    let s := board .bFoldNext
    s.busy = false ∧ s.driven = true ∧ s.latch = false ∧ s.cfg.pointVariant = .bFoldNext
      ∧ (∀ w ∈ ([0x002E, 0x002E] : List Word), payloadChar w = pointChar)
      ∧ released.busy = false ∧ released.driven = false := by
  refine ⟨rfl, rfl, rfl, rfl, fun w hw => ?_, rfl, rfl⟩
  simp only [List.mem_cons, List.not_mem_nil, or_false, or_self] at hw
  rw [hw]; rfl

/-- OutputPorts: a busy block that waits for a payload word, and one that sends. -/
theorem witness_ports :
    (waiting .bFoldNext 1).busy = true ∧ (waiting .bFoldNext 1).cmdReady = true ∧ sending.busy = true
      ∧ sending.phase ≠ .lookup := by decide

/-- SlotCountsOfTheVariants: two slots of `B_FOLD_PREV` of which the first has no flag (T26: "1..2"). -/
theorem witness_slots_prev :
    slotsPrev [0x31, 0x2E, 0x2E, 0x32] = [(0x31, true)] ++ (0x2E, false) :: (0x32, false) :: [] := by decide

/-- SlotCountsOfTheVariants: a frame in which every '.' follows a character that is none. -/
theorem witness_slot_counts : ∀ (a b : List Byte), [0x31, pointChar] = a ++ pointChar :: b →
    ∃ a' c, a = a' ++ [c] ∧ c ≠ pointChar := by
  intro a b h
  match a with
  | [] => simp [pointChar] at h
  | [x] => simp at h; exact ⟨[], x, rfl, by rw [← h.1]; decide⟩
  | x :: y :: r => simp at h

/-- EnableAndDisableWriteVis, ShutdownBlanksThenReleases, OutputPorts, BoundaryEffect: driven; ShutdownIsIdempotent,
ReleasedCommandsReportResourceError, and the released clauses: released. -/
theorem witness_output_control :
    (lit .aStandalone).busy = false ∧ (lit .aStandalone).driven = true
      ∧ released.busy = false ∧ released.cmd = none ∧ released.driven = false
      ∧ (Instr.render [0x0058]).header ≠ none ∧ Instr.render [0x0058] ≠ .shutdown := by decide

/-- ReleasedCommandsReportResourceError, the step on a RENDER: the longest frame, and nothing after it. -/
theorem witness_released_step :
    ({ released with words := encode (.render (List.replicate 255 0x0038)) } : State).words
        = encode (.render (List.replicate 255 0x0038)) ++ []
      ∧ released.inputs = [] ∧ (List.replicate 255 (0x0038 : Word)).length ≤ 255 :=
  ⟨(List.append_nil _).symm, rfl, List.length_replicate.le⟩

/-- VisibilityAndDataAreIndependent and InstructionFrames: every instruction answers a next state somewhere. -/
theorem witness_exec_next : ∀ i : Instr, ∃ t, exec i (lit .aStandalone) = .next t := by
  intro i
  cases i <;> exact ⟨_, rfl⟩

/-- CharwAdvancesTheFrame: a slot, a held character, a point folded back, the held character sent, a pending point (the last
word of the frame, and not the last), and the character that takes it. -/
theorem witness_charw :
    (waiting .aStandalone 1).awaiting = true ∧ (waiting .aStandalone 1).discard = false
      ∧ (waiting .aStandalone 1).cfg.pointVariant = .aStandalone
      ∧ resolveSlot (waiting .aStandalone 1).cfg (payloadChar 0x002E) false = some 0x08
      ∧ (waiting .bFoldPrev 255).awaiting = true ∧ (waiting .bFoldPrev 255).holdv = false
      ∧ ({ waiting .bFoldPrev 1 with holdv := true, hold := 0x31 } : State).awaiting = true
      ∧ payloadChar 0x002E = pointChar ∧ payloadChar 0x0030 ≠ pointChar
      ∧ resolveSlot (waiting .bFoldPrev 1).cfg 0x31 true = some 0x0E
      ∧ resolveSlot (waiting .bFoldPrev 1).cfg 0x31 false = some 0x06
      ∧ (waiting .bFoldNext 1).awaiting = true ∧ (waiting .bFoldNext 2).awaiting = true
      ∧ resolveSlot (waiting .bFoldNext 1).cfg (payloadChar 0x0030) true = some 0x7F := by decide

/-- CharwUnsupported: the other variants; the held character, not the word, fails under `B_FOLD_PREV`, with a '.' after it,
with another character after it, and at the end of the frame. -/
theorem witness_charw_unsupported :
    (waiting .bFoldNext 1).awaiting = true ∧ (waiting .bFoldNext 1).driven = true
      ∧ ({ waiting .bFoldPrev 2 with holdv := true, hold := 0x58 } : State).awaiting = true
      ∧ (waiting .bFoldPrev 2).driven = true ∧ (waiting .bFoldPrev 2).discard = false ∧ charIndex 0x58 = none
      ∧ payloadChar 0x002E = pointChar ∧ payloadChar 0x0031 ≠ pointChar
      ∧ (let s : State := { waiting .bFoldPrev 0 with holdv := true, hold := 0x58, inputs := [.clock false] }
        s.busy = true ∧ s.phase = .lookup ∧ s.cmd = some (.render 9) ∧ s.remain = 0 ∧ s.driven = true) := by decide

/-- CharwDroppedAfterFailure and CharwUnsupported: the last word and one before it, lines driven and released. -/
theorem witness_charw_failure :
    ({ waiting .aStandalone 2 with discard := true } : State).awaiting = true
      ∧ ({ waiting .aStandalone 1 with discard := true, driven := false } : State).awaiting = true
      ∧ (waiting .aStandalone 1).driven = true ∧ charIndex (payloadChar 0x0131) = none := by decide

/-- StepExecutesTheDecodedInstruction: a command, and a payload word; BusyBlockTakesNoCommand and the payload word withheld
(WithheldPayloadWaits). -/
theorem witness_step :
    decode [0x3000, 0xFFFF] = .ok (.enable, [0xFFFF])
      ∧ ({ lit .aStandalone with words := [0x3000, 0xFFFF] } : State).busy = false
      ∧ ({ waiting .bFoldNext 255 with words := [0x5000] } : State).awaiting = true
      ∧ sending.busy = true ∧ sending.awaiting = false ∧ sending.inputs = []
      ∧ ({ waiting .bFoldNext 1 with inputs := [.clock false] } : State).driven = true := by decide

theorem witness_busy_step : ∃ t, step sending = .next t := ⟨_, rfl⟩

/-- IllegalWordIsConsumedAlone: words at the ends of each illegal range. -/
theorem witness_illegal :
    (0x0FFF : Word).extractLsb' 12 4 = 0b0000#4 ∧ 0b0110#4 ≤ (0x6000 : Word).extractLsb' 12 4
      ∧ ((0x1200 : Word).extractLsb' 12 4 = 0b0001#4 ∧ (0x1200 : Word).extractLsb' 9 3 ≠ 0#3)
      ∧ ((0x2100 : Word).extractLsb' 12 4 = 0b0010#4 ∧ (0x2100 : Word).extractLsb' 8 4 ≠ 0#4)
      ∧ (0b0011#4 ≤ (0x5001 : Word).extractLsb' 12 4 ∧ (0x5001 : Word).extractLsb' 12 4 ≤ 0b0101#4
        ∧ (0x5001 : Word).extractLsb' 0 12 ≠ 0#12)
      ∧ (lit .aStandalone).cmd = none ∧ (lit .aStandalone).inputs = [] := by decide

/-- LinesRestBetweenCommands: the levels after reset. -/
theorem witness_rest :
    (board .aStandalone).busy = false ∧ (board .aStandalone).latch = false ∧ (board .aStandalone).events = []
      ∧ 8 ∣ risingEdges .sck false (board .aStandalone).events := by decide

/-- CancelShutsDownAtAnyBoundary and CancelCutsTheCommandShort: not cancelled yet, driven and released, and cancelled. -/
theorem witness_cancel :
    ({ sending with inputs := [.cancel] } : State).cancelled = false ∧ sending.driven = true
      ∧ ({ released with inputs := [.cancel] } : State).cancelled = false
      ∧ ({ released with cancelled := true, inputs := [.cancel] } : State).cancelled = true
      ∧ sending.phase = .clkHigh := by decide

/-- CancelCutsTheCommandShort, and the invariant in the middle of a bit cell. -/
theorem witness_sending_inv : ({ sending with inputs := [.cancel] } : State).Inv where
  statusLegal := Nat.zero_le _
  position := ⟨rfl, rfl, rfl, rfl⟩
  clear := fun h => by cases h
  lines := ⟨rfl, rfl, rfl, rfl⟩
  latchLow := fun h => by cases h
  releasedBlank := fun h => by cases h
  cancelledReleased := fun h => by cases h
  chain := ⟨Nat.succ_pos _, rfl⟩

/-- CancelCutsTheCommandShort: the invariant between the two writes of a latch pulse. -/
theorem witness_latching_inv :
    ({ waiting .aStandalone 0 with
      phase := .latchLo, latch := true, events := [⟨.latch, true⟩], inputs := [.cancel] } : State).Inv where
  statusLegal := Nat.zero_le _
  position := ⟨rfl, rfl, rfl, rfl⟩
  clear := fun h => by cases h
  lines := ⟨rfl, rfl, rfl, rfl⟩
  latchLow := fun _ => .inl rfl
  releasedBlank := fun h => by cases h
  cancelledReleased := fun h => by cases h
  chain := ⟨Nat.succ_pos _, rfl⟩

/-- ResetSetsEveryRegister and PowerUpDrawsTheChain: as many stages drawn as there are, and both steps answer. -/
theorem witness_reset (d : ResetDraws) :
    (∃ t, step { sending with inputs := [.powerUp d [1, 2, 3, 4] [5, 6, 7, 8]] } = .next t)
      ∧ (∃ t, step { sending with inputs := [.reset d] } = .next t)
      ∧ [(1 : Byte), 2, 3, 4].length = sending.shift.length := ⟨⟨_, rfl⟩, ⟨_, rfl⟩, rfl⟩

/-- EveryStepKeepsTheInvariant, InvariantStatesNeverFault, NoStepWritesTheParameters, RecordedEventsStand: a step from a
state that keeps the invariant. -/
theorem witness_step_inv : (board .bFoldPrev).Inv ∧ ∃ t, step (board .bFoldPrev) = .next t :=
  ⟨board_inv _, _, rfl⟩

/-- OnlyResetAcquiresTheLines, RecordedEventsStand, ReleasedStaysReleased: no reset asked for; a SHUTDOWN that releases. -/
theorem witness_no_reset :
    ({ lit .aStandalone with words := [0x5000] } : State).noReset
      ∧ (∃ t, step { lit .aStandalone with words := [0x5000] } = .next t ∧ t.driven = false) :=
  ⟨⟨fun _ _ h => (by cases h), fun _ _ _ _ h => (by cases h)⟩, _, rfl, rfl⟩

theorem witness_released_inv : released.Inv ∧ released.noReset ∧ ∃ t, step released = .next t :=
  ⟨{ statusLegal := Nat.zero_le _, position := rfl, clear := fun _ => ⟨rfl, rfl, rfl, rfl, rfl, rfl⟩
     lines := ⟨rfl, rfl, rfl, rfl⟩, latchLow := fun h => (by cases h), releasedBlank := fun _ => .inl rfl
     cancelledReleased := fun h => (by cases h), chain := ⟨Nat.succ_pos _, rfl⟩ },
    ⟨fun _ _ h => (by cases h), fun _ _ _ _ h => (by cases h)⟩, _, rfl⟩

/-- StatusIsWrittenAtCompletion: a step that writes another `STATUS`, by a command and by a reset. -/
theorem witness_status_written :
    (∃ t, step { lit .aStandalone with words := [0xFFFF] } = .next t ∧ t.status ≠ (lit .aStandalone).status)
      ∧ ∃ t, step { sending with inputs := [.reset ⟨false, true, 0, 0⟩] } = .next t ∧ t.status ≠ sending.status :=
  ⟨⟨_, rfl, by decide⟩, _, rfl, by decide⟩

/-- CommandsEndWithinTheirBounds: a command with the lines released (`witness_micro_step` has one with the lines driven),
and a busy block that does not wait. -/
theorem witness_bounds :
    ({ released with words := encode (.render [0x0058]) ++ [] } : State).Inv
      ∧ (Instr.render [0x0058]).wellFormed = true ∧ (Instr.render [0x0058]).header ≠ none
      ∧ ({ sending with inputs := [.clock false] } : State).Inv ∧ sending.busy = true ∧ sending.awaiting = false :=
  ⟨{ statusLegal := Nat.zero_le _, position := rfl, clear := fun _ => ⟨rfl, rfl, rfl, rfl, rfl, rfl⟩
     lines := ⟨rfl, rfl, rfl, rfl⟩, latchLow := fun h => (by cases h), releasedBlank := fun _ => .inl rfl
     cancelledReleased := fun h => (by cases h), chain := ⟨Nat.succ_pos _, rfl⟩ },
    by decide, by decide,
    { witness_sending_inv with }, rfl, rfl⟩

/-- MicroStepLevelAgreesWithOperationLevel and CommandsEndWithinTheirBounds. -/
theorem witness_micro_step :
    let s : State := { board .bFoldPrev with words := encode (.render [0x0031, 0x002E]) ++ [0x3000] }
    s.Inv ∧ s.busy = false ∧ s.driven = true ∧ s.inputs = [] ∧ (Instr.render [0x0031, 0x002E]).wellFormed = true
      ∧ (Instr.render [0x0031, 0x002E]).header ≠ none :=
  ⟨{ statusLegal := Nat.zero_le _, position := rfl, clear := fun _ => ⟨rfl, rfl, rfl, rfl, rfl, rfl⟩
     lines := ⟨rfl, rfl, rfl, rfl⟩, latchLow := fun h => (by cases h), releasedBlank := fun _ => .inl rfl
     cancelledReleased := fun h => (by cases h), chain := ⟨Nat.succ_pos _, rfl⟩ },
    rfl, rfl, rfl, by decide, by decide⟩

/-- StopwatchUpdate: before the start instant, and at it. -/
theorem witness_stopwatch_update : (99 : Rat) < 100 ∧ (100 : Rat) ≤ 100 := by norm_num

/-- StopwatchFrameDigits, StopwatchFrameSlots, IssuedFrameIsReadBack: the last frame and the first overflow, with and without
the indicator. -/
theorem witness_stopwatch_frame :
    (Stopwatch.frame ⟨0, 99, 59, true⟩).isSome = true ∧ (Stopwatch.frame ⟨0, 99, 59, false⟩).isSome = true
      ∧ 100 ≤ (Stopwatch.mk 0 100 0 false).elapsedMinutes := by decide

/-- HostLoopIssuesTheFrame: a frame, and the overflow at 6000 seconds (H16). -/
theorem witness_host_loop :
    ({ lit .aStandalone with inputs := [.host (.loop true 0)] } : State).busy = false
      ∧ (lit .aStandalone).words = []
      ∧ ((Stopwatch.update 0 (Stopwatch.restart 0 (lit .aStandalone).stopwatch)).frame).isSome = true
      ∧ (Stopwatch.update 6000 (lit .aStandalone).stopwatch).frame = none := by decide +kernel

end Sys2Proof.Tests
end

section
/-! SUPPORT. What each transition leaves unchanged: the registers outside the sequencer, the frame of every command, and the
cases of one step (10_state R14, R17, R20, R24; 60_exceptions R125). -/

namespace Sys2Proof.Machine

/-! ### The state outside the sequencer -/

/-- The state with `STATUS`, `BUF`, `HOLD` and the registers of the sequencer blanked: two states with the same `outer` differ
in those alone, so the lines, the chain, the events and everything outside the block agree. -/
def State.outer (s : State) : State :=
  { s with
    status := 0, busy := false, cmd := none, slot := 0, bit := 0, phase := .idle
    buf := 0, remain := 0, hold := 0, holdv := false, pendp := false, discard := false }

section
variable {s t : State}

theorem sck_of_outer (e : t.outer = s.outer) : t.sck = s.sck := (congrArg State.sck e :)
theorem data_of_outer (e : t.outer = s.outer) : t.data = s.data := (congrArg State.data e :)
theorem latch_of_outer (e : t.outer = s.outer) : t.latch = s.latch := (congrArg State.latch e :)
theorem vis_of_outer (e : t.outer = s.outer) : t.vis = s.vis := (congrArg State.vis e :)
theorem driven_of_outer (e : t.outer = s.outer) : t.driven = s.driven := (congrArg State.driven e :)
theorem cancelled_of_outer (e : t.outer = s.outer) : t.cancelled = s.cancelled := (congrArg State.cancelled e :)
theorem events_of_outer (e : t.outer = s.outer) : t.events = s.events := (congrArg State.events e :)
theorem shift_of_outer (e : t.outer = s.outer) : t.shift = s.shift := (congrArg State.shift e :)
theorem store_of_outer (e : t.outer = s.outer) : t.store = s.store := (congrArg State.store e :)
theorem words_of_outer (e : t.outer = s.outer) : t.words = s.words := (congrArg State.words e :)
theorem inputs_of_outer (e : t.outer = s.outer) : t.inputs = s.inputs := (congrArg State.inputs e :)
theorem stopwatch_of_outer (e : t.outer = s.outer) : t.stopwatch = s.stopwatch := (congrArg State.stopwatch e :)
theorem draws_of_outer (e : t.outer = s.outer) : t.draws = s.draws := (congrArg State.draws e :)
theorem cfg_of_outer (e : t.outer = s.outer) : t.cfg = s.cfg := (congrArg State.cfg e :)

end

/-! ### Operations that drive no line -/

/-- `STATUS` stands, or a command has just ended (R18, R73). -/
def StatusStands (s t : State) : Prop := t.status = s.status ∨ (t.busy = false ∧ t.phase = .done)

/-- No line is driven and nothing outside the sequencer changes; `STATUS` is written only where a command ends. -/
def Silent (s t : State) : Prop := t.outer = s.outer ∧ StatusStands s t

@[simp] theorem complete_outer (s : State) (c : Code) : (s.complete c).outer = s.outer := rfl

theorem complete_silent (s : State) (c : Code) : Silent s (s.complete c) := ⟨rfl, .inr ⟨rfl, rfl⟩⟩

theorem failure_silent (s : State) : Silent s s.failure := by
  unfold State.failure; split <;> exact ⟨rfl, .inr ⟨rfl, rfl⟩⟩

theorem nextSlot_silent (s : State) : Silent s s.nextSlot := by
  unfold State.nextSlot; split <;> exact ⟨rfl, .inl rfl⟩

theorem beginSlot_silent (c : Byte) (p : Bool) (s : State) : Silent s (s.beginSlot c p) := by
  unfold State.beginSlot
  split
  · exact ⟨rfl, .inl rfl⟩
  · split
    · exact failure_silent s
    · exact ⟨rfl, .inl rfl⟩

/-- The transfer of a payload word drives no line. -/
theorem payloadArrives_silent (c : Byte) (s : State) : Silent s (s.payloadArrives c) := by
  unfold State.payloadArrives
  split
  · split
    · exact failure_silent s
    · exact ⟨rfl, .inl rfl⟩
  · split
    · exact beginSlot_silent c _ s
    · split
      · split <;> exact beginSlot_silent ..
      · exact nextSlot_silent _
    · split
      · exact nextSlot_silent _
      · exact beginSlot_silent c _ s

/-- The acceptance of a command word drives no line. -/
theorem accept_silent (h : Header) (s : State) : Silent s (s.accept h) := by
  cases h with
  | render len =>
    simp only [State.accept]
    split
    · split
      · exact ⟨rfl, .inl rfl⟩
      · exact complete_silent s _
    · exact ⟨rfl, .inl rfl⟩
  | sendDigit | enable | disable | shutdown =>
    simp only [State.accept]
    split
    · exact ⟨rfl, .inl rfl⟩
    · exact complete_silent s _

/-! ### What one micro-step can do -/

/-- At most one write of a line, or the release of the lines. -/
inductive OneWrite (s : State) : State → Prop
  | none : OneWrite s s
  | drive (l : Line) (v : Bool) : OneWrite s (s.drive l v)
  | release : OneWrite s s.release

/-- One micro-step writes at most one line, or blanks and releases the lines; the rest of it is the sequencer's (R20). -/
theorem microStep_cases {s t : State} (h : s.microStep = .next t) : ∃ u, OneWrite s u ∧ Silent u t := by
  unfold State.microStep at h
  split at h
  case h_1 => cases h; exact ⟨s, .none, rfl, .inl rfl⟩
  case h_2 => cases h; exact ⟨s, .none, rfl, .inl rfl⟩
  case h_3 => -- LOOKUP
    refine ⟨s, .none, ?_⟩
    unfold State.lookupStep at h
    split at h
    · split at h <;> cases h
      · exact complete_silent s _
      · exact ⟨rfl, .inl rfl⟩
    · split at h <;> cases h
      exact beginSlot_silent ..
    · cases h
  case h_4 => cases h; exact ⟨_, .drive .sck false, rfl, .inl rfl⟩
  case h_5 => cases h; exact ⟨_, .drive .data _, rfl, .inl rfl⟩
  case h_6 => -- the third write of a bit cell
    refine ⟨_, .drive .sck true, ?_⟩
    unfold State.clkHighStep at h
    split at h
    · split at h <;> cases h
      · exact complete_silent _ _
      · exact nextSlot_silent _
    · cases h; exact ⟨rfl, .inl rfl⟩
  case h_7 => cases h; exact ⟨_, .drive .latch true, rfl, .inl rfl⟩
  case h_8 => cases h; exact ⟨_, .drive .latch false, rfl, .inr ⟨rfl, rfl⟩⟩
  case h_9 => -- the one write of ENABLE, DISABLE or SHUTDOWN
    unfold State.oeStep at h
    split at h <;> cases h
    · exact ⟨_, .drive .vis true, complete_silent _ _⟩
    · exact ⟨_, .drive .vis false, complete_silent _ _⟩
    · exact ⟨_, .release, complete_silent _ _⟩

/-! ### The frame of every command -/

/-- What no transition of the block itself changes: the parameters, the cancel flag, everything outside the block, the
counter of free values, the number of stages and the events already recorded (R14, R21, R25). -/
structure Frame (s t : State) : Prop where
  cfg : t.cfg = s.cfg
  cancelled : t.cancelled = s.cancelled
  words : t.words = s.words
  inputs : t.inputs = s.inputs
  stopwatch : t.stopwatch = s.stopwatch
  draws : t.draws = s.draws
  stages : t.shift.length = s.shift.length
  events : ∃ new, t.events = s.events ++ new

theorem Keeps.frame {s t : State} (h : Keeps s t) : Frame s t :=
  ⟨h.cfg, h.cancelled, h.words, h.inputs, h.stopwatch, h.draws, h.stages, h.events⟩

/-- The registers that `outer` blanks are no part of the frame. -/
theorem Frame.congr {s t u : State} (h : Frame s t) (e : u.outer = t.outer) : Frame s u :=
  ⟨(cfg_of_outer e).trans h.cfg, (cancelled_of_outer e).trans h.cancelled, (words_of_outer e).trans h.words,
    (inputs_of_outer e).trans h.inputs, (stopwatch_of_outer e).trans h.stopwatch, (draws_of_outer e).trans h.draws,
    (congrArg List.length (shift_of_outer e)).trans h.stages, h.events.imp fun _ hn => (events_of_outer e).trans hn⟩

theorem Frame.of_outer {s t : State} (e : t.outer = s.outer) : Frame s t := (Keeps.refl s).frame.congr e

theorem Frame.drive (s : State) (l : Line) (v : Bool) : Frame s (s.drive l v) :=
  ⟨by simp, by simp, by simp, by simp, by simp, by simp, by rw [State.drive_shift]; split <;> simp, [⟨l, v⟩],
    by simp⟩

theorem Frame.release (s : State) : Frame s s.release := by
  refine ⟨by simp, by simp, by simp, by simp, by simp, by simp, by simp, ?_⟩
  cases hd : s.driven with
  | true => exact ⟨[⟨.vis, false⟩], by simp [hd]⟩
  | false => exact ⟨[], by simp [hd]⟩

theorem Frame.microStep {s t : State} (h : s.microStep = .next t) : Frame s t := by
  obtain ⟨_, write, e, _⟩ := microStep_cases h
  cases write with
  | none => exact .of_outer e
  | drive l v => exact (Frame.drive s l v).congr e
  | release => exact (Frame.release s).congr e

/-! ### What `exec` can do -/

/-- What an instruction does on an idle block. A payload word there is a word with opcode 0000 in command position (R67). -/
def State.perform (s : State) : Instr → State
  | .sendDigit p c => s.sendDigit p c
  | .render f => s.render f
  | .enable => s.setVisible true
  | .disable => s.setVisible false
  | .shutdown => s.shutdown
  | .charw _ => s.illegal

/-- The transfer of a payload word that is waited for (R23, R92). -/
def State.transfer (s : State) (w : Word) : State :=
  ({ s with remain := s.remain - 1 } : State).payloadArrives (payloadChar w)

theorem whenIdle_eq_next {s t u : State} : s.whenIdle t = .next u ↔ s.busy = false ∧ u = t := by
  unfold State.whenIdle
  cases s.busy <;> simp [eq_comm]

/-- An instruction runs on an idle block, or is the payload word a RENDER waits for. -/
theorem exec_cases {s t : State} {i : Instr} (h : exec i s = .next t) :
    (s.busy = false ∧ t = s.perform i) ∨ ∃ w, i = .charw w ∧ s.awaiting = true ∧ t = s.transfer w := by
  cases i with
  | charw w =>
    change execCharw w s = .next t at h
    unfold execCharw at h
    split at h
    next ha => cases h; exact .inr ⟨w, rfl, ha, rfl⟩
    next => exact .inl (whenIdle_eq_next.1 h)
  | sendDigit | render | enable | disable | shutdown => exact .inl (whenIdle_eq_next.1 h)

theorem exec_of_not_charw {s t : State} {i : Instr} (h : exec i s = .next t) (hi : ∀ w, i ≠ .charw w) :
    t = s.perform i := by
  obtain ⟨_, rfl⟩ | ⟨w, rfl, _⟩ := exec_cases h
  · rfl
  · exact absurd rfl (hi w)

theorem transfer_silent (s : State) (w : Word) : Silent s (s.transfer w) := payloadArrives_silent _ _

/-! ### What each command changes -/

theorem Keeps.sendDigit (p : Bool) (c : Byte) (s : State) : Keeps s (s.sendDigit p c) := by
  unfold State.sendDigit
  split
  · split
    · exact .complete _ _
    · exact (Keeps.shiftOut s _).trans (.complete _ _)
  · exact .complete _ _

theorem Keeps.render (f : List Word) (s : State) : Keeps s (s.render f) := by
  unfold State.render
  split
  · exact .sendSlots _ _
  · exact .complete _ _

theorem setVisible_outer (v : Bool) (s : State) :
    (s.setVisible v).outer = if s.driven then (s.drive .vis v).outer else s.outer := by
  unfold State.setVisible; split <;> rfl

theorem shutdown_outer (s : State) : s.shutdown.outer = s.release.outer := rfl

theorem Frame.setVisible (v : Bool) (s : State) : Frame s (s.setVisible v) := by
  have e := setVisible_outer v s
  split at e
  · exact (Frame.drive s .vis v).congr e
  · exact .of_outer e

theorem Frame.perform (s : State) (i : Instr) : Frame s (s.perform i) := by
  cases i with
  | sendDigit p c => exact (Keeps.sendDigit p c s).frame
  | render f => exact (Keeps.render f s).frame
  | enable => exact .setVisible true s
  | disable => exact .setVisible false s
  | shutdown => exact (Frame.release s).congr (shutdown_outer s)
  | charw => exact .of_outer rfl

theorem Frame.exec {s t : State} {i : Instr} (h : exec i s = .next t) : Frame s t := by
  obtain ⟨_, rfl⟩ | ⟨w, _, _, rfl⟩ := exec_cases h
  · exact .perform s i
  · exact .of_outer (transfer_silent s w).1

/-! A visibility change writes VIS, `STATUS` and the position alone (R94, R95). -/

@[simp] theorem setVisible_sck (v : Bool) (s : State) : (s.setVisible v).sck = s.sck := by
  unfold State.setVisible; split <;> simp
@[simp] theorem setVisible_data (v : Bool) (s : State) : (s.setVisible v).data = s.data := by
  unfold State.setVisible; split <;> simp
@[simp] theorem setVisible_latch (v : Bool) (s : State) : (s.setVisible v).latch = s.latch := by
  unfold State.setVisible; split <;> simp
@[simp] theorem setVisible_shift (v : Bool) (s : State) : (s.setVisible v).shift = s.shift := by
  unfold State.setVisible; split <;> simp [State.drive_shift]
@[simp] theorem setVisible_store (v : Bool) (s : State) : (s.setVisible v).store = s.store := by
  unfold State.setVisible; split <;> simp [State.drive_store]
@[simp] theorem setVisible_hold (v : Bool) (s : State) : (s.setVisible v).hold = s.hold := by
  unfold State.setVisible; split <;> simp
@[simp] theorem setVisible_buf (v : Bool) (s : State) : (s.setVisible v).buf = s.buf := by
  unfold State.setVisible; split <;> simp
@[simp] theorem setVisible_driven (v : Bool) (s : State) : (s.setVisible v).driven = s.driven := by
  unfold State.setVisible; split <;> simp

/-- Only SHUTDOWN gives the lines up (R17). -/
theorem perform_driven (s : State) (i : Instr) (hi : i ≠ .shutdown) : (s.perform i).driven = s.driven := by
  cases i with
  | sendDigit p c => exact (Keeps.sendDigit p c s).driven
  | render f => exact (Keeps.render f s).driven
  | enable | disable => simp [State.perform]
  | shutdown => exact absurd rfl hi
  | charw => rfl

/-- SEND_DIGIT leaves LATCH, `STORE` and `HOLD` (R75). -/
theorem sendDigit_frame (p : Bool) (c : Byte) (s : State) :
    (s.sendDigit p c).latch = s.latch ∧ (s.sendDigit p c).store = s.store ∧ (s.sendDigit p c).hold = s.hold := by
  unfold State.sendDigit
  split
  · split
    · exact ⟨rfl, rfl, rfl⟩
    · next v _ =>
      obtain ⟨hl, hs, hh, _⟩ := bitCells_other (slotBits v) { s with buf := v }
      exact ⟨hl, hs, hh⟩
  · exact ⟨rfl, rfl, rfl⟩

/-- Only RENDER writes LATCH, and with it `STORE` (R87). -/
theorem perform_latch_store (s : State) (i : Instr) (hi : ∀ f, i ≠ .render f) :
    (s.perform i).latch = s.latch ∧ (s.perform i).store = s.store := by
  cases i with
  | sendDigit p c =>
    obtain ⟨hlatch, hstore, _⟩ := sendDigit_frame p c s
    exact ⟨hlatch, hstore⟩
  | render f => exact absurd rfl (hi f)
  | enable | disable | shutdown => simp [State.perform, State.shutdown]
  | charw => exact ⟨rfl, rfl⟩

/-- Only RENDER writes `HOLD` (R21). -/
theorem perform_hold (s : State) (i : Instr) (hi : ∀ f, i ≠ .render f) : (s.perform i).hold = s.hold := by
  cases i with
  | sendDigit p c =>
    obtain ⟨_, _, hhold⟩ := sendDigit_frame p c s
    exact hhold
  | render f => exact absurd rfl (hi f)
  | enable | disable | shutdown => simp [State.perform, State.shutdown]
  | charw => rfl

/-- Only SEND_DIGIT and RENDER write SCK and DATA, and with them `SHIFT`. -/
theorem perform_serial (s : State) (i : Instr) (hr : ∀ f, i ≠ .render f) (hd : ∀ p c, i ≠ .sendDigit p c) :
    (s.perform i).sck = s.sck ∧ (s.perform i).data = s.data ∧ (s.perform i).shift = s.shift := by
  cases i with
  | sendDigit p c => exact absurd rfl (hd p c)
  | render f => exact absurd rfl (hr f)
  | enable | disable | shutdown => simp [State.perform, State.shutdown]
  | charw => exact ⟨rfl, rfl, rfl⟩

/-- The output-control commands leave `BUF`. -/
theorem perform_buf (s : State) (i : Instr) (hi : i = .enable ∨ i = .disable ∨ i = .shutdown) :
    (s.perform i).buf = s.buf := by
  obtain rfl | rfl | rfl := hi <;> simp [State.perform, State.shutdown]

theorem sendSlots_phase (slots : List Slot) (s : State) : (s.sendSlots slots).phase = .done := by
  induction slots generalizing s with
  | nil => rfl
  | cons x slots ih =>
    obtain ⟨c, p⟩ := x
    simp only [State.sendSlots]
    split
    · rfl
    · exact ih _

/-- Every command ends with the block idle in the `done` pulse (R73). -/
theorem perform_ends (s : State) (i : Instr) : (s.perform i).busy = false ∧ (s.perform i).phase = .done := by
  cases i with
  | sendDigit p c =>
    simp only [State.perform, State.sendDigit]
    split
    · split <;> exact ⟨rfl, rfl⟩
    · exact ⟨rfl, rfl⟩
  | render f =>
    simp only [State.perform, State.render]
    split
    · exact ⟨sendSlots_busy _ _, sendSlots_phase _ _⟩
    · exact ⟨rfl, rfl⟩
  | enable | disable => simp only [State.perform, State.setVisible]; split <;> exact ⟨rfl, rfl⟩
  | shutdown | charw => exact ⟨rfl, rfl⟩

/-- With the lines released no command drives a line (R99). -/
theorem perform_outer_of_released (s : State) (i : Instr) (hd : s.driven = false) : (s.perform i).outer = s.outer := by
  cases i with
  | sendDigit | render | enable | disable =>
    simp [State.perform, State.sendDigit, State.render, State.setVisible, hd]
  | shutdown => simp [State.perform, State.shutdown, State.release, hd]
  | charw => rfl

end Sys2Proof.Machine
end

section
/-! SUPPORT. One step said once: a reset or a power-up is taken, or the block makes one turn from the state that the boundary
leaves (60_exceptions R125, 92_eei_decisions D1). -/

namespace Sys2Proof.Machine

/-- The state with other inputs, words and Stopwatch outside the block. -/
def State.withOutside (x : List Input) (ws : List Word) (sw : Stopwatch) (s : State) : State :=
  { s with inputs := x, words := ws, stopwatch := sw }

/-- What the block can do at a boundary that takes no reset. -/
inductive Turn (u : State) : State → Prop
  /-- Nothing: the block waits, or only the host moved. -/
  | stay : Turn u u
  /-- An idle block executes a whole instruction, or takes an illegal word. -/
  | perform (i : Instr) (idle : u.busy = false) : Turn u (u.perform i)
  /-- A RENDER takes the payload word it waits for. -/
  | transfer (w : Word) (waits : u.awaiting = true) : Turn u (u.transfer w)
  /-- An idle block accepts a command word. -/
  | accept (h : Header) (idle : u.busy = false) : Turn u (u.accept h)
  /-- The command in progress makes one micro-step. -/
  | micro (t : State) (busy : u.busy = true) (waits : u.awaiting = false) (step : u.microStep = .next t) : Turn u t
  /-- A cancellation is taken. -/
  | cancel : Turn u u.takeCancel

/-- The step takes a reset or a power-up (R141, R142). -/
inductive TakesReset (s : State) : State → Prop
  | reset (d : ResetDraws) (rest : List Input) (asked : s.inputs = .reset d :: rest) :
      TakesReset s (({ s.boundary with inputs := rest } : State).applyReset d)
  | powerUp (d : ResetDraws) (shift store : List Byte) (rest : List Input) (asked : s.inputs = .powerUp d shift store :: rest) :
      TakesReset s (({ s.boundary with inputs := rest } : State).powerUp d shift store)

/-- One turn, with some words taken from the port. -/
def TakesTurn (u t : State) : Prop := ∃ ws, Turn ({ u with words := ws } : State) t

theorem Turn.takesTurn {u t : State} (h : Turn u t) : TakesTurn u t := ⟨u.words, h⟩

theorem Turn.of_exec {u t : State} {i : Instr} (h : exec i u = .next t) : Turn u t := by
  obtain ⟨hb, rfl⟩ | ⟨w, _, ha, rfl⟩ := exec_cases h
  · exact .perform i hb
  · exact .transfer w ha

theorem acceptWord_turn (w : Word) (u : State) (hb : u.busy = false) : Turn u (u.acceptWord w) := by
  unfold State.acceptWord
  split
  next h _ => exact .accept h hb
  next => exact .perform (.charw 0) hb

theorem clockCycle_turn {u t : State} {v : Bool} (h : u.clockCycle v = .next t) : TakesTurn u t := by
  unfold State.clockCycle at h
  split at h
  · split at h
    · exact ⟨_, .of_exec h⟩
    · cases h; exact Turn.stay.takesTurn
  · next ha =>
    split at h
    · next hb => exact (Turn.micro t hb (by simpa using ha) h).takesTurn
    · next hb =>
      split at h
      · cases h; exact ⟨_, acceptWord_turn _ _ (by simpa using hb)⟩
      · cases h; exact Turn.stay.takesTurn

theorem operate_turn {u t : State} (h : u.operate = .next t) : TakesTurn u t := by
  unfold State.operate at h
  split at h
  · exact clockCycle_turn h
  · next hb =>
    have illegal : ∀ ws, Turn ({ u with words := ws } : State) ({ u with words := ws } : State).illegal :=
      fun ws => .perform (.charw 0) (by simpa using hb)
    split at h
    · exact ⟨_, .of_exec h⟩
    · cases h; exact Turn.stay.takesTurn
    · exact clockCycle_turn h
    all_goals cases h; exact ⟨_, illegal _⟩

/-- The host's thread changes its Stopwatch and the words it has to present, nothing else (R100, R115). -/
theorem hostMove_withOutside {u t : State} {op : HostOp} (h : u.hostMove op = .next t) :
    ∃ ws sw, t = u.withOutside u.inputs ws sw := by
  have issueFrame : ∀ v : State, (∃ sw, v = u.withOutside u.inputs u.words sw) → v.issueFrame = .next t →
      ∃ ws sw, t = u.withOutside u.inputs ws sw := by
    rintro _ ⟨sw, rfl⟩ hv
    unfold State.issueFrame at hv
    split at hv <;> cases hv
    exact ⟨_, sw, rfl⟩
  cases op with
  | construct | reset | update => cases h; exact ⟨_, _, rfl⟩
  | issue | exit => cases h; exact ⟨_, _, rfl⟩
  | renderFrame => exact issueFrame u ⟨u.stopwatch, rfl⟩ h
  | loop fired now =>
    refine issueFrame _ ?_ h
    cases fired <;> exact ⟨_, rfl⟩

/-- Every step that answers: a reset, or one turn of the block after its boundary. -/
theorem step_cases {s t : State} (h : step s = .next t) :
    TakesReset s t ∨ ∃ x ws sw, Turn (s.boundary.withOutside x ws sw) t := by
  have turn : ∀ x, TakesTurn { s.boundary with inputs := x } t → ∃ x ws sw, Turn (s.boundary.withOutside x ws sw) t :=
    fun x ⟨ws, h⟩ => ⟨x, ws, s.boundary.stopwatch, h⟩
  have hin : s.boundary.inputs = s.inputs := s.boundary_inputs
  simp only [step, State.transition, State.react] at h
  split at h
  · exact .inr (turn _ (operate_turn h))
  · exact .inr (turn _ (clockCycle_turn h))
  · cases h; exact .inr (turn _ Turn.cancel.takesTurn)
  · next hi => cases h; exact .inl (.reset _ _ (hin.symm.trans hi))
  · next hi => cases h; exact .inl (.powerUp _ _ _ _ (hin.symm.trans hi))
  · split at h
    · exact .inr (turn _ (operate_turn h))
    · obtain ⟨ws, sw, rfl⟩ := hostMove_withOutside h
      exact .inr ⟨_, ws, sw, .stay⟩

theorem TakesReset.not_noReset {s t : State} (h : TakesReset s t) : ¬ s.noReset := by
  rintro ⟨hr, hp⟩
  cases h with
  | reset d rest asked => exact hr d rest asked
  | powerUp d a b rest asked => exact hp d a b rest asked

theorem step_cases_of_noReset {s t : State} (hn : s.noReset) (h : step s = .next t) :
    ∃ x ws sw, Turn (s.boundary.withOutside x ws sw) t :=
  (step_cases h).resolve_left fun hr => hr.not_noReset hn

/-- A reset leaves an idle block (R142). -/
theorem TakesReset.busy {s t : State} (h : TakesReset s t) : t.busy = false := by
  cases h <;> rfl

/-- The boundary neither begins nor ends the wait for a payload word. -/
theorem boundary_awaiting_eq (s : State) : s.boundary.awaiting = s.awaiting := by
  have hp : (s.boundary.phase == .lookup) = (s.phase == .lookup) := by
    rw [State.boundary_phase]; cases s.phase <;> rfl
  simp only [State.awaiting, hp, State.boundary_busy, State.boundary_remain, State.boundary_cmd]

/-! ### What every turn does to the events, to DRIVEN and to STATUS -/

/-- Recorded events stand, the lines are not acquired, a release leaves the display blank, and `STATUS` is written only where a
command ends (R17, R18, R24). -/
structure Advances (s t : State) : Prop where
  events : ∃ new, t.events = s.events ++ new
  owned : t.driven = true → s.driven = true
  blank : s.driven = true → t.driven = false → t.vis = false
  status : StatusStands s t

theorem Advances.of_driven {s t : State} (hd : t.driven = s.driven) (he : ∃ new, t.events = s.events ++ new)
    (hs : StatusStands s t) : Advances s t :=
  ⟨he, fun h => hd ▸ h, fun h h' => by simp [← hd, h'] at h, hs⟩

theorem Advances.of_silent {s t : State} (h : Silent s t) : Advances s t :=
  .of_driven (driven_of_outer h.1) (Frame.of_outer h.1).events h.2

theorem Advances.of_release {s t : State} (e : t.outer = s.release.outer) (hs : StatusStands s t) : Advances s t :=
  ⟨((Frame.release s).congr e).events, by simp [driven_of_outer e], fun h _ => by simp [vis_of_outer e, h], hs⟩

/-- The words on the port play no part in a release. -/
theorem withdrawPayload_release (s : State) : s.withdrawPayload.release = s.release.withdrawPayload := by
  unfold State.release
  rw [State.withdrawPayload_driven]
  split <;> rfl

theorem Advances.takeCancel (s : State) : Advances s s.takeCancel := by
  unfold State.takeCancel
  split
  · exact .of_silent ⟨rfl, .inl rfl⟩
  · rw [withdrawPayload_release]
    exact ⟨(Frame.release s).events, by simp, fun h _ => by simp [h], .inr ⟨rfl, rfl⟩⟩

theorem Advances.perform (s : State) (i : Instr) : Advances s (s.perform i) := by
  have ends : StatusStands s (s.perform i) := .inr (perform_ends s i)
  by_cases hi : i = .shutdown
  · subst hi
    exact .of_release rfl ends
  · exact .of_driven (perform_driven s i hi) (Frame.perform s i).events ends

theorem Advances.microStep {s t : State} (h : s.microStep = .next t) : Advances s t := by
  obtain ⟨_, write, e, hs⟩ := microStep_cases h
  cases write with
  | none => exact .of_silent ⟨e, hs⟩
  | drive l v =>
    have hs' : StatusStands s t := by simpa [StatusStands] using hs
    exact .of_driven ((driven_of_outer e).trans (s.drive_driven l v)) (Frame.microStep h).events hs'
  | release => exact .of_release e (by simpa [StatusStands] using hs)

theorem Turn.advances {u t : State} (h : Turn u t) : Advances u t := by
  cases h with
  | stay => exact .of_silent ⟨rfl, .inl rfl⟩
  | perform i => exact .perform u i
  | transfer w => exact .of_silent (transfer_silent u w)
  | accept h => exact .of_silent (accept_silent h u)
  | micro _ _ _ hm => exact .microStep hm
  | cancel => exact .takeCancel u

/-- The boundary and what is outside the block touch none of it. -/
theorem Turn.advances_step {s t : State} {x : List Input} {ws : List Word} {sw : Stopwatch}
    (h : Turn (s.boundary.withOutside x ws sw) t) : Advances s t := by
  obtain ⟨he, ho, hb, hs⟩ := h.advances
  exact ⟨by simpa [State.withOutside] using he, by simpa [State.withOutside] using ho,
    by simpa [State.withOutside] using hb, by simpa [StatusStands, State.withOutside] using hs⟩

/-! ### The statements -/

/-- Settles O29: the frame of `exec`, and for each register the instructions that write it. -/
theorem instructionFrames : Obligations.InstructionFrames := by
  intro s t i h
  obtain ⟨hcfg, hcancelled, hwords, hinputs, hstopwatch, hdraws, hstages, hevents⟩ := Frame.exec h
  refine ⟨hcfg, hcancelled, hwords, hinputs, hstopwatch, hdraws, hstages, hevents, ?_⟩
  obtain ⟨_, rfl⟩ | ⟨w, rfl, _, rfl⟩ := exec_cases h
  · refine ⟨perform_driven s i, perform_latch_store s i, fun hr _ => perform_hold s i hr, perform_serial s i,
      perform_buf s i, ?_⟩
    rintro w rfl
    exact ⟨rfl, rfl⟩
  · have e := (transfer_silent s w).1
    exact ⟨fun _ => driven_of_outer e, fun _ => ⟨latch_of_outer e, store_of_outer e⟩, fun _ hw => absurd rfl (hw w),
      fun _ _ => ⟨sck_of_outer e, data_of_outer e, shift_of_outer e⟩, fun hi => by simp at hi,
      fun _ _ => ⟨events_of_outer e, vis_of_outer e⟩⟩

/-- Settles O37: every command runs through `whenIdle`, and a busy block that waits for no word makes a micro-step. -/
theorem busyBlockTakesNoCommand : Obligations.BusyBlockTakesNoCommand := by
  refine ⟨fun s i hb hi => ?_, fun s t hb ha hin h => ?_⟩
  · have refuses : ∀ t, s.whenIdle t = .refused .busy := fun t => if_pos hb
    cases i with
    | charw => exact absurd rfl hi
    | sendDigit | render | enable | disable | shutdown => exact refuses _
  · have hm : s.boundary.microStep = .next t := by
      have ha' : s.boundary.awaiting = false := (boundary_awaiting_eq s).trans ha
      simpa [step, State.transition, State.react, hin, State.operate, State.clockCycle, hb, ha'] using h
    exact (Frame.microStep hm).words.trans s.boundary_words

/-- Settles O49. -/
theorem onlyResetAcquiresTheLines : Obligations.OnlyResetAcquiresTheLines := by
  intro s t hn h
  obtain ⟨_, _, _, turn⟩ := step_cases_of_noReset hn h
  exact ⟨turn.advances_step.owned, turn.advances_step.blank⟩

/-- Settles O51. -/
theorem recordedEventsStand : Obligations.RecordedEventsStand := by
  intro s t hn h
  obtain ⟨_, _, _, turn⟩ := step_cases_of_noReset hn h
  exact turn.advances_step.events

/-- Settles O52: a reset leaves the block idle, and every other write of `STATUS` is the end of a command. -/
theorem statusIsWrittenAtCompletion : Obligations.StatusIsWrittenAtCompletion := by
  intro s t h hne
  obtain hr | ⟨_, _, _, turn⟩ := step_cases h
  · exact ⟨hr.busy, .inr hr.not_noReset⟩
  · obtain ⟨hb, hp⟩ := turn.advances_step.status.resolve_left hne
    exact ⟨hb, .inl hp⟩

end Sys2Proof.Machine
end

section
/-! SUPPORT. The invariant, kept by the boundary, by every turn of the block and by a reset (10_state R14, R20, R29). -/

namespace Sys2Proof.Machine

/-! ### Building the invariant -/

/-- `Base` looks at `STATUS` and at what is outside the sequencer. -/
theorem State.Base.of_outer {s t : State} (h : s.Base) (e : t.outer = s.outer) (hs : t.status.toNat ≤ 4) : t.Base :=
  h.congr hs (sck_of_outer e) (data_of_outer e) (latch_of_outer e) (vis_of_outer e) (events_of_outer e)
    (driven_of_outer e) (cancelled_of_outer e) (shift_of_outer e) (store_of_outer e)

/-- A busy block at a legal position keeps the invariant. -/
theorem State.Base.inv_of_busy {s : State} (h : s.Base) (busy : s.busy = true) (position : s.positionLegal)
    (latch : s.latchLow) : s.Inv :=
  ⟨h.statusLegal, position, fun hb => by simp [busy] at hb, h.lines, latch, h.releasedBlank, h.cancelledReleased, h.chain⟩

theorem latchLow_of_latch {s : State} (h : s.latch = false) : s.latchLow := fun hl => by simp [h] at hl

/-- Outside the latch pulse, LATCH is high only after a cancellation. -/
theorem State.Inv.cancelled_of_latch {s : State} (h : s.Inv) (hp : s.phase ≠ .latchLo) (hl : s.latch = true) :
    s.cancelled = true :=
  (h.latchLow hl).resolve_left hp

/-- An idle block is in one of the two phases between commands. -/
theorem State.Inv.phase_of_idle {s : State} (h : s.Inv) (hb : s.busy = false) :
    s.cmd = none ∧ (s.phase = .idle ∨ s.phase = .done) := by
  have hpos := h.position
  unfold State.positionLegal at hpos
  split at hpos <;> simp_all

theorem State.Inv.phase_ne_latchLo_of_idle {s : State} (h : s.Inv) (hb : s.busy = false) : s.phase ≠ .latchLo := by
  obtain ⟨_, hp | hp⟩ := h.phase_of_idle hb <;> simp [hp]

/-! ### The boundary and the outside -/

@[simp] theorem freeChain_length (k n : Nat) : (freeChain k n).length = n := by simp [freeChain]

/-- `Base` stands while the chain drifts and the `done` pulse ends. -/
theorem State.Base.boundary {s : State} (h : s.Base) : s.boundary.Base := by
  obtain ⟨hstatus, hlines, hblank, hcancelled, hchain⟩ := h
  refine ⟨by simpa, by simpa [State.linesMatchEvents] using hlines, by simpa [State.releasedBlank] using hblank,
    by simpa using hcancelled, ?_⟩
  unfold State.chainShape at hchain ⊢
  rw [State.boundary_shift, State.boundary_store]
  split <;> simpa using hchain

/-- The position stays legal: the `done` pulse gives way to IDLE, and only driven lines are inside a latch pulse. -/
theorem State.Inv.boundary {s : State} (h : s.Inv) : s.boundary.Inv := by
  have hpos := h.position
  cases hb : s.busy with
  | false =>
    obtain ⟨hcmd, hphase⟩ := h.phase_of_idle hb
    refine h.base.boundary.inv_of_idle (by simpa) (by simpa) (by simpa [State.transientsClear] using h.clear hb) ?_ ?_
    · rw [State.boundary_phase]; split <;> simp_all
    · simpa using h.cancelled_of_latch (h.phase_ne_latchLo_of_idle hb)
  | true =>
    have hdone : s.phase ≠ .done := by
      intro hd
      simp only [State.positionLegal, hd] at hpos
      split at hpos <;> simp_all
    refine h.base.boundary.inv_of_busy (by simpa) ?_ (by simpa [State.latchLow, hdone] using h.latchLow)
    unfold State.positionLegal at hpos ⊢
    simp only [State.boundary_phase, hdone, if_false, State.boundary_cmd]
    split at hpos <;> simp_all

theorem State.Inv.withOutside {s : State} (h : s.Inv) (x : List Input) (ws : List Word) (sw : Stopwatch) :
    (s.withOutside x ws sw).Inv :=
  ⟨h.statusLegal, h.position, h.clear, h.lines, h.latchLow, h.releasedBlank, h.cancelledReleased, h.chain⟩

/-! ### Whole instructions -/

theorem State.Base.inv_sendSlots {s : State} (h : s.Base) (hd : s.driven = true) (hl : s.latch = false)
    (slots : List Slot) : (s.sendSlots slots).Inv := by
  induction slots generalizing s with
  | nil =>
    have hb : s.latchPulse.Base := (h.drive .latch true hd).drive .latch false (by simpa)
    exact hb.inv_endRender .ok (by simp [latchPulse_eq s hd])
  | cons x slots ih =>
    obtain ⟨c, p⟩ := x
    simp only [State.sendSlots]
    split
    · exact h.inv_endRender _ (by simp [hl])
    · next v _ => exact ih (h.shiftOut hd v) (by simpa [shiftOut_eq s v hd]) (by simpa [shiftOut_eq s v hd])

theorem State.Inv.perform {s : State} (h : s.Inv) (hb : s.busy = false) (i : Instr) : (s.perform i).Inv := by
  have hp := h.phase_ne_latchLo_of_idle hb
  have stop : ∀ c, (s.complete c).Inv := fun c => h.base.inv_complete c (h.cancelled_of_latch hp)
  cases hd : s.driven with
  | false =>
    cases i with
    | shutdown => simpa [State.perform, State.shutdown, State.release, hd] using stop .ok
    | charw => exact stop _
    | sendDigit | render | enable | disable =>
      simpa [State.perform, State.sendDigit, State.render, State.setVisible, hd] using stop .resourceError
  | true =>
    have hl := h.latch_eq_false hd hp
    cases i with
    | sendDigit p c =>
      simp only [State.perform, State.sendDigit, hd, if_true]
      split
      · exact stop _
      · next v _ => exact (h.base.shiftOut hd v).inv_complete .ok (by simp [shiftOut_eq s v hd, hl])
    | render f =>
      simp only [State.perform, State.render, hd, if_true]
      exact h.base.inv_sendSlots hd hl _
    | enable | disable =>
      simp only [State.perform, State.setVisible, hd, if_true]
      exact (h.base.drive .vis _ hd).inv_complete .ok (by simp [hl])
    | shutdown => exact h.base.release.inv_complete .ok (by simp [hl])
    | charw => exact stop _

/-- The acceptance of a command word puts the sequencer at the first position of the command. -/
theorem State.Inv.accept {s : State} (h : s.Inv) (hb : s.busy = false) (c : Header) : (s.accept c).Inv := by
  have hp := h.phase_ne_latchLo_of_idle hb
  have stop : ∀ c, (s.complete c).Inv := fun c => h.base.inv_complete c (h.cancelled_of_latch hp)
  have e : (s.accept c).outer = s.outer := (accept_silent c s).1
  have latch : (s.accept c).latchLow := fun hl =>
    .inr ((cancelled_of_outer e).trans (h.cancelled_of_latch hp ((latch_of_outer e).symm.trans hl)))
  have begins : (s.accept c).status = s.status → (s.accept c).busy = true → (s.accept c).positionLegal → (s.accept c).Inv :=
    fun hs hb hpos => (h.base.of_outer e (hs ▸ h.statusLegal)).inv_of_busy hb hpos latch
  cases hd : s.driven with
  | false =>
    cases c with
    | render len =>
      by_cases hz : len = 0#8
      · simpa [State.accept, hd, hz] using stop .resourceError
      · apply begins <;> simp [State.accept, hd, hz, State.positionLegal]
    | shutdown => simpa [State.accept, hd] using stop .ok
    | sendDigit | enable | disable => simpa [State.accept, hd] using stop .resourceError
  | true =>
    cases c with
    | render len =>
      by_cases hz : len = 0#8 <;> apply begins <;> simp [State.accept, hd, hz, State.positionLegal]
    | sendDigit | enable | disable | shutdown => apply begins <;> simp [State.accept, hd, State.positionLegal]

/-! ### Inside a command -/

/-- Inside a RENDER that still sends its slots: the lines are driven and LATCH is low. -/
structure InRender (s : State) : Prop where
  base : s.Base
  busy : s.busy = true
  driven : s.driven = true
  discard : s.discard = false
  latch : s.latch = false
  cmd : ∃ len, s.cmd = some (.render len)

/-- From a RENDER to its next slot or to the latch pulse. -/
theorem InRender.nextSlot {s : State} (h : InRender s) : s.nextSlot.Inv := by
  obtain ⟨hbase, hb, hd, hdis, hl, len, hc⟩ := h
  unfold State.nextSlot
  split
  · refine State.Base.inv_of_busy (hbase.of_outer rfl hbase.statusLegal) hb ?_ (latchLow_of_latch hl)
    simp [State.positionLegal, hc, hb, hd]
  · next hrest =>
    refine State.Base.inv_of_busy (hbase.of_outer rfl hbase.statusLegal) hb ?_ (latchLow_of_latch hl)
    simpa [State.positionLegal, hc, hb, hd, hdis] using hrest

/-- The lookup of a slot of a RENDER. -/
theorem InRender.beginSlot {s : State} (h : InRender s) (hp : s.phase = .lookup) (c : Byte) (p : Bool) :
    (s.beginSlot c p).Inv := by
  obtain ⟨hbase, hb, hd, hdis, hl, len, hc⟩ := h
  unfold State.beginSlot
  split
  · refine State.Base.inv_of_busy (hbase.of_outer rfl hbase.statusLegal) hb ?_ (latchLow_of_latch hl)
    simp [State.positionLegal, hc, hb, hd, hdis]
  · split
    · simpa [State.failure, hd] using hbase.inv_endRender .lookupError (by simp [hl])
    · next hr =>
      refine State.Base.inv_of_busy (hbase.of_outer rfl hbase.statusLegal) hb ?_ (latchLow_of_latch hl)
      have hr' : ¬ s.remain = 0#8 := hr
      simp [State.positionLegal, hc, hb, hd, hp, hr']

/-- What the invariant says of a RENDER in LOOKUP. -/
theorem State.Inv.render_lookup {s : State} {len : Byte} (h : s.Inv) (hp : s.phase = .lookup)
    (hc : s.cmd = some (.render len)) :
    s.busy = true ∧ (s.driven = false → s.discard = true) ∧ (s.discard = true → s.remain ≠ 0)
      ∧ (s.remain = 0 → s.holdv = true) := by
  simpa only [State.positionLegal, hp, hc] using h.position

/-- A RENDER in LOOKUP that drops nothing still sends. -/
theorem State.Inv.inRender {s : State} {len : Byte} (h : s.Inv) (hp : s.phase = .lookup)
    (hc : s.cmd = some (.render len)) (hdis : s.discard = false) : InRender s := by
  obtain ⟨hb, hrel, _, _⟩ := h.render_lookup hp hc
  have hd : s.driven = true := by
    by_contra hd; simp [hrel (by simpa using hd)] at hdis
  exact ⟨h.base, hb, hd, hdis, h.latch_eq_false hd (by simp [hp]), len, hc⟩

/-- The look-ahead registers play no part in it. -/
theorem InRender.congr {s t : State} (h : InRender s) (e : t.outer = s.outer) (status : t.status = s.status)
    (busy : t.busy = s.busy) (discard : t.discard = s.discard) (cmd : t.cmd = s.cmd) : InRender t :=
  ⟨h.base.of_outer e (status ▸ h.base.statusLegal), busy.trans h.busy, (driven_of_outer e).trans h.driven,
    discard.trans h.discard, (latch_of_outer e).trans h.latch, cmd ▸ h.cmd⟩

theorem InRender.payloadArrives {s : State} (h : InRender s) (hp : s.phase = .lookup) (c : Byte) :
    (s.payloadArrives c).Inv := by
  unfold State.payloadArrives
  rw [if_neg (by simp [h.discard])]
  split
  · exact h.beginSlot hp c _
  · split
    · split <;> apply InRender.beginSlot
      exacts [h.congr rfl rfl rfl rfl rfl, hp, h.congr rfl rfl rfl rfl rfl, hp]
    · exact InRender.nextSlot (h.congr rfl rfl rfl rfl rfl)
  · split
    · exact InRender.nextSlot (h.congr rfl rfl rfl rfl rfl)
    · exact h.beginSlot hp c _

/-- A payload word is dropped, or begins the next slot of a RENDER that sends. -/
theorem State.Inv.transfer {s : State} (h : s.Inv) (ha : s.awaiting = true) (w : Word) : (s.transfer w).Inv := by
  obtain ⟨hb, hp, hr, len, hc⟩ := awaiting_elim ha
  have hbase : State.Base { s with remain := s.remain - 1 } := h.base.of_outer rfl h.statusLegal
  have latch : s.latch = true → s.cancelled = true := h.cancelled_of_latch (by simp [hp])
  cases hdis : s.discard with
  | false =>
    apply InRender.payloadArrives
    exacts [(h.inRender hp hc hdis).congr rfl rfl rfl rfl rfl, hp]
  | true =>
    unfold State.transfer State.payloadArrives
    rw [if_pos hdis]
    split
    · unfold State.failure
      split
      · exact hbase.inv_endRender _ latch
      · exact hbase.inv_complete _ latch
    · next hr' =>
      refine hbase.inv_of_busy hb ?_ fun hl => .inr (latch hl)
      have hr'' : ¬ s.remain - 1#8 = 0#8 := hr'
      simp [State.positionLegal, hp, hc, hb, hdis, hr'']

/-- With its lines released a busy block waits for payload to drop: no command is at a line write. -/
theorem State.Inv.awaiting_of_released {s : State} (h : s.Inv) (hd : s.driven = false) (hb : s.busy = true) :
    s.awaiting = true := by
  have hpos := h.position
  unfold State.positionLegal at hpos
  split at hpos <;> simp_all [State.awaiting]

/-- LOOKUP with no payload word to wait for goes to the first bit cell, or ends the command. -/
theorem State.Inv.lookupStep {s t : State} (h : s.Inv) (hp : s.phase = .lookup) (ha : s.awaiting = false)
    (hm : s.lookupStep = .next t) : t.Inv := by
  have hpos := h.position
  unfold State.lookupStep at hm
  split at hm
  next p c hc =>
    simp only [State.positionLegal, hp, hc] at hpos
    obtain ⟨hb, hd⟩ := hpos
    have hl := h.latch_eq_false hd (by simp [hp])
    split at hm <;> cases hm
    · exact h.base.inv_complete _ (by simp [hl])
    · refine State.Base.inv_of_busy (h.base.of_outer rfl h.statusLegal) hb ?_ (latchLow_of_latch hl)
      simp [State.positionLegal, hc, hb, hd]
  next len hc =>
    obtain ⟨hb, _, hkeep, _⟩ := h.render_lookup hp hc
    have hr : s.remain = 0 := by
      by_contra hr; simp [awaiting_intro hb hp hr hc] at ha
    have hdis : s.discard = false := by
      by_contra hdis; exact hkeep (by simpa using hdis) hr
    split at hm <;> cases hm
    apply InRender.beginSlot
    exacts [(h.inRender hp hc hdis).congr rfl rfl rfl rfl rfl, hp]
  next => cases hm

/-- Inside the bit cells of SEND_DIGIT or of a RENDER: the lines are driven and LATCH is low. -/
structure InCell (s : State) : Prop where
  base : s.Base
  busy : s.busy = true
  driven : s.driven = true
  latch : s.latch = false
  cmd : (∃ p c, s.cmd = some (.sendDigit p c)) ∨ (∃ len, s.cmd = some (.render len)) ∧ s.discard = false

/-- The invariant in a bit cell; after its first write SCK is low. -/
theorem State.Inv.inCell {s : State} (h : s.Inv) (hp : s.phase = .clkLow ∨ s.phase = .setData ∨ s.phase = .clkHigh) :
    InCell s ∧ (s.phase ≠ .clkLow → s.sck = false) := by
  have hpos := h.position
  have cell : s.busy = true → s.driven = true →
      ((∃ p c, s.cmd = some (.sendDigit p c)) ∨ (∃ len, s.cmd = some (.render len)) ∧ s.discard = false) → InCell s :=
    fun hb hd hc => ⟨h.base, hb, hd, h.latch_eq_false hd (by obtain hp | hp | hp := hp <;> simp [hp]), hc⟩
  unfold State.positionLegal at hpos
  split at hpos <;> simp_all

theorem InCell.congr {s t : State} (h : InCell s) (e : t.outer = s.outer) (status : t.status = s.status)
    (busy : t.busy = s.busy) (discard : t.discard = s.discard) (cmd : t.cmd = s.cmd) : InCell t :=
  ⟨h.base.of_outer e (status ▸ h.base.statusLegal), busy.trans h.busy, (driven_of_outer e).trans h.driven,
    (latch_of_outer e).trans h.latch, by rw [cmd, discard]; exact h.cmd⟩

theorem InCell.drive {s : State} (h : InCell s) (l : Line) (v : Bool) (hl : l ≠ .latch) : InCell (s.drive l v) :=
  ⟨h.base.drive l v h.driven, by simpa using h.busy, by simpa using h.driven, by simpa [hl] using h.latch,
    by simpa using h.cmd⟩

/-- A position in a bit cell is legal there. -/
theorem InCell.inv {s : State} (h : InCell s) (hp : s.phase = .clkLow ∨ s.phase = .setData ∨ s.phase = .clkHigh)
    (hs : s.phase ≠ .clkLow → s.sck = false) : s.Inv := by
  obtain ⟨hbase, hb, hd, hl, hc⟩ := h
  refine hbase.inv_of_busy hb ?_ (latchLow_of_latch hl)
  unfold State.positionLegal
  obtain ⟨p, c, hc⟩ | ⟨⟨len, hc⟩, hdis⟩ := hc <;> obtain hp | hp | hp := hp <;> simp_all

/-- After the last write of a bit cell comes the next cell, the end of SEND_DIGIT, or the next slot of a RENDER. -/
theorem InCell.clkHighStep {s t : State} (h : InCell s) (hm : s.clkHighStep = .next t) : t.Inv := by
  have h' := h.drive .sck true (by decide)
  unfold State.clkHighStep at hm
  split at hm
  · split at hm <;> cases hm
    · exact h'.base.inv_complete _ (by simp [h.latch])
    next len hc =>
      have hdis : s.discard = false := by
        obtain ⟨p, c, hc'⟩ | ⟨_, hdis⟩ := h.cmd
        · simp [hc] at hc'
        · exact hdis
      have hr : InRender (s.drive .sck true) := ⟨h'.base, h'.busy, h'.driven, by simpa, h'.latch, len, by simpa⟩
      exact InRender.nextSlot (hr.congr rfl rfl rfl rfl rfl)
  · cases hm
    exact InCell.inv (h'.congr rfl rfl rfl rfl rfl) (.inl rfl) fun hne => absurd rfl hne

/-- The one write of ENABLE, DISABLE or SHUTDOWN ends the command. -/
theorem State.Inv.oeStep {s t : State} (h : s.Inv) (hd : s.driven = true) (hp : s.phase = .oeWrite)
    (hm : s.oeStep = .next t) : t.Inv := by
  have hl := h.latch_eq_false hd (by simp [hp])
  unfold State.oeStep at hm
  split at hm <;> cases hm
  · exact (h.base.drive .vis true hd).inv_complete _ (by simp [hl])
  · exact (h.base.drive .vis false hd).inv_complete _ (by simp [hl])
  · exact h.base.release.inv_complete _ (by simp [hl])

/-- The first write of the latch pulse raises LATCH and publishes `SHIFT` (R50, R58). -/
theorem State.Inv.latchHi {s : State} (h : s.Inv) (hp : s.phase = .latchHi) :
    State.Inv { s.drive .latch true with phase := .latchLo } := by
  have hpos : s.busy = true ∧ s.driven = true ∧ ∃ len, s.cmd = some (.render len) := by
    have hpos := h.position
    unfold State.positionLegal at hpos
    split at hpos <;> simp_all
  obtain ⟨hb, hd, len, hc⟩ := hpos
  have hl := h.latch_eq_false hd (by simp [hp])
  have hbase := h.base.drive .latch true hd
  refine State.Base.inv_of_busy (hbase.of_outer rfl hbase.statusLegal) (by simpa) ?_ fun _ => .inl rfl
  simp [State.positionLegal, hc, hb, hd, hl, State.drive_store, State.drive_shift]

theorem State.Inv.microStep {s t : State} (h : s.Inv) (hb : s.busy = true) (ha : s.awaiting = false)
    (hm : s.microStep = .next t) : t.Inv := by
  have hd : s.driven = true := by
    by_contra hd; simp [h.awaiting_of_released (by simpa using hd) hb] at ha
  unfold State.microStep at hm
  split at hm
  next => cases hm; exact h
  next => cases hm; exact h
  next hp => exact h.lookupStep hp ha hm
  next hp =>
    cases hm
    have hc := (h.inCell (.inl hp)).1.drive .sck false (by decide)
    exact InCell.inv (hc.congr rfl rfl rfl rfl rfl) (.inr (.inl rfl)) fun _ => rfl
  next hp =>
    cases hm
    obtain ⟨hc, hs⟩ := h.inCell (.inr (.inl hp))
    have hc' := hc.drive .data (s.buf.getLsbD s.bit) (by decide)
    exact InCell.inv (hc'.congr rfl rfl rfl rfl rfl) (.inr (.inr rfl)) fun _ => by simpa using hs (by simp [hp])
  next hp => exact (h.inCell (.inr (.inr hp))).1.clkHighStep hm
  next hp => cases hm; exact h.latchHi hp
  next hp => cases hm; exact (h.base.drive .latch false hd).inv_endRender _ (by simp)
  next hp => exact h.oeStep hd hp hm

/-! ### Cancellation and reset -/

/-- A cancellation may leave LATCH high, and leaves the lines released until reset (R126). -/
theorem State.Inv.takeCancel {s : State} (h : s.Inv) : s.takeCancel.Inv := by
  unfold State.takeCancel
  split
  · exact h
  · rw [withdrawPayload_release]
    obtain ⟨_, hlines, hblank, _, hchain⟩ := h.base.release
    have hbase : State.Base { s.release.withdrawPayload.complete .aborted with cancelled := true } :=
      ⟨Code.bits_le .aborted, hlines, hblank, fun _ => s.release_driven, hchain⟩
    exact hbase.inv_of_idle rfl rfl ⟨rfl, rfl, rfl, rfl, rfl, rfl⟩ (.inr rfl) fun _ => rfl

/-- A reset establishes all of the invariant but the shape of the chain, which it does not touch (R28, R142). -/
theorem applyReset_inv (d : ResetDraws) (s : State) (h : s.chainShape) : (s.applyReset d).Inv := by
  have hstatus : (s.applyReset d).status.toNat ≤ 4 := by
    unfold State.applyReset
    split <;> exact Code.bits_le _
  have hbase : (s.applyReset d).Base :=
    ⟨hstatus, ⟨rfl, rfl, rfl, rfl⟩, fun _ => .inl rfl, nofun, h⟩
  exact hbase.inv_of_idle rfl rfl ⟨rfl, rfl, rfl, rfl, rfl, rfl⟩ (.inl rfl) nofun

theorem stages_length (n : Nat) (l : List Byte) : (stages n l).length = n := by simp [stages]

theorem powerUp_inv (d : ResetDraws) (shift store : List Byte) (s : State) (h : s.chainShape) :
    (s.powerUp d shift store).Inv := by
  obtain ⟨hstatus, hpos, hclear, hlines, hlatch, hblank, hcancelled, _⟩ := applyReset_inv d s h
  exact ⟨hstatus, hpos, hclear, hlines, hlatch, hblank, hcancelled, by
    simpa [State.chainShape, State.powerUp, stages_length, State.ndigits] using h.1⟩

theorem TakesReset.inv {s t : State} (h : s.Inv) (hr : TakesReset s t) : t.Inv := by
  cases hr with
  | reset d rest => exact applyReset_inv d _ h.boundary.chain
  | powerUp d a b rest => exact powerUp_inv d a b _ h.boundary.chain

theorem Turn.inv {u t : State} (h : u.Inv) (turn : Turn u t) : t.Inv := by
  cases turn with
  | stay => exact h
  | perform i idle => exact h.perform idle i
  | transfer w waits => exact h.transfer waits w
  | accept c idle => exact h.accept idle c
  | micro _ busy waits hm => exact h.microStep busy waits hm
  | cancel => exact h.takeCancel

/-- With the lines released nothing but a reset drives them, and no event is recorded. -/
theorem Turn.released {u t : State} (h : u.Inv) (hd : u.driven = false) (turn : Turn u t) :
    t.driven = false ∧ t.events = u.events := by
  have outer : t.outer = u.outer → t.driven = false ∧ t.events = u.events :=
    fun e => ⟨(driven_of_outer e).trans hd, events_of_outer e⟩
  cases turn with
  | stay => exact ⟨hd, rfl⟩
  | perform i => exact outer (perform_outer_of_released u i hd)
  | transfer w => exact outer (transfer_silent u w).1
  | accept c => exact outer (accept_silent c u).1
  | micro _ busy waits => simp [h.awaiting_of_released hd busy] at waits
  | cancel =>
    have hrel : u.release = u := by simp [State.release, hd]
    unfold State.takeCancel
    rw [withdrawPayload_release, hrel]
    split <;> exact ⟨hd, rfl⟩

/-! ### The statements -/

/-- Settles O45: a reset establishes the invariant, and the boundary and each kind of turn keep it. -/
theorem everyStepKeepsTheInvariant : Obligations.EveryStepKeepsTheInvariant := by
  intro s t hs h
  obtain hr | ⟨x, ws, sw, turn⟩ := step_cases h
  · exact hr.inv hs
  · exact turn.inv (hs.boundary.withOutside x ws sw)

/-- Settles O44. -/
theorem resetHasTheInvariant : Obligations.ResetHasTheInvariant := by
  have hbase : State.reset.Base :=
    ⟨by decide, ⟨rfl, rfl, rfl, rfl⟩, fun _ => .inl rfl, nofun,
      by simp [State.chainShape, State.reset, Config.ndigits]⟩
  exact hbase.inv_of_idle rfl rfl ⟨rfl, rfl, rfl, rfl, rfl, rfl⟩ (.inl rfl) nofun

/-- Settles O47: with the lines released a busy block only drops payload, and no command drives a line. -/
theorem releasedStaysReleased : Obligations.ReleasedStaysReleased := by
  intro s t hs hd hn h
  obtain ⟨x, ws, sw, turn⟩ := step_cases_of_noReset hn h
  obtain ⟨hdriven, hevents⟩ := turn.released (hs.boundary.withOutside x ws sw) (s.boundary_driven.trans hd)
  exact ⟨hdriven, hevents.trans s.boundary_events⟩

end Sys2Proof.Machine
end

section
/-! SUPPORT. The levels at which the lines rest between commands (10_state R29). -/

namespace Sys2Proof.Machine

/-- Between commands SCK is the last level written, high exactly after a rising edge, the edges come in eights, LATCH is low,
and DATA is bit 0 of the last value sent (R29). -/
def State.rests (s : State) : Prop :=
  s.sck = levelAfter .sck false s.events ∧ s.latch = false ∧ 8 ∣ risingEdges .sck false s.events
    ∧ (s.sck = true ↔ risingEdges .sck false s.events ≠ 0) ∧ s.data = (s.sck && s.buf.getLsbD 0)

theorem levelAfter_slotEvents (v : Byte) (a : Bool) : levelAfter .sck a (slotEvents v) = true := by
  simp [slotEvents, slotBits, cellEvents, levelAfter]

/-- A slot leaves SCK high after 8 more edges, and DATA at its bit 0 (R56, R79). -/
theorem State.rests.shiftOut {s : State} (h : s.rests) (hd : s.driven = true) (v : Byte) : (s.shiftOut v).rests := by
  obtain ⟨_, hlatch, hedges, _, _⟩ := h
  obtain ⟨hrise, _⟩ := slotEvents_edges v (levelAfter .sck false s.events)
  rw [shiftOut_eq s v hd]
  refine ⟨?_, hlatch, ?_, ?_, ?_⟩
  · simp [levelAfter_append, levelAfter_slotEvents]
  · simpa [risingEdges_append, hrise] using hedges
  · simp [risingEdges_append, hrise]
  · simp

/-- Writes of other lines than SCK, with SCK, DATA and `BUF` unchanged and LATCH low after them. -/
theorem State.rests.of_append {s t : State} (h : s.rests) {new : List Event} (hnew : ∀ e ∈ new, e.line ≠ .sck)
    (events : t.events = s.events ++ new) (sck : t.sck = s.sck) (data : t.data = s.data) (buf : t.buf = s.buf)
    (latch : t.latch = false) : t.rests := by
  have quiet : ∀ (new : List Event) (a : Bool), (∀ e ∈ new, e.line ≠ .sck) →
      levelAfter .sck a new = a ∧ risingEdges .sck a new = 0 := by
    intro new
    induction new with
    | nil => exact fun a _ => ⟨rfl, rfl⟩
    | cons e new ih =>
      intro a he
      simp only [levelAfter, risingEdges, if_neg (he e (by simp))]
      exact ih a fun x hx => he x (by simp [hx])
  obtain ⟨hlevel, hrise⟩ := quiet new (levelAfter .sck false s.events) hnew
  unfold State.rests
  rw [events, sck, data, buf, levelAfter_append, risingEdges_append, hlevel, hrise]
  obtain ⟨hsck, _, hedges, hiff, hdata⟩ := h
  exact ⟨hsck, latch, hedges, hiff, hdata⟩

/-- The end of a command touches no line. -/
theorem State.rests.complete {s : State} (h : s.rests) (c : Code) : (s.complete c).rests := h

theorem State.rests.endRender {s : State} (h : s.rests) (c : Code) : (s.endRender c).rests := h

theorem State.rests.latchPulse {s : State} (h : s.rests) (hd : s.driven = true) : s.latchPulse.rests := by
  have e := latchPulse_eq s hd
  refine h.of_append (new := latchEvents) (by decide) ?_ ?_ ?_ ?_ ?_ <;> rw [e]

theorem State.rests.sendSlots {s : State} (h : s.rests) (hd : s.driven = true) (slots : List Slot) :
    (s.sendSlots slots).rests := by
  induction slots generalizing s with
  | nil => exact (h.latchPulse hd).endRender .ok
  | cons x slots ih =>
    obtain ⟨c, p⟩ := x
    simp only [State.sendSlots]
    split
    · exact h.endRender _
    · next v _ => exact ih (h.shiftOut hd v) (by simpa [shiftOut_eq s v hd])

theorem State.rests.drive_vis {s : State} (h : s.rests) (v : Bool) : (s.drive .vis v).rests := by
  obtain ⟨_, hlatch, _⟩ := id h
  exact h.of_append (new := [⟨.vis, v⟩]) (by simp) rfl rfl rfl rfl hlatch

theorem State.rests.perform {s : State} (h : s.rests) (i : Instr) : (s.perform i).rests := by
  cases i with
  | sendDigit p c =>
    simp only [State.perform, State.sendDigit]
    split
    · next hd =>
      split
      · exact h.complete .lookupError
      · exact (h.shiftOut hd _).complete .ok
    · exact h.complete _
  | render f =>
    simp only [State.perform, State.render]
    split
    · next hd => exact h.sendSlots hd _
    · exact h.complete _
  | enable | disable =>
    simp only [State.perform, State.setVisible]
    split
    · exact (h.drive_vis _).complete _
    · exact h.complete _
  | shutdown =>
    simp only [State.perform, State.shutdown, State.release]
    split
    · exact (h.drive_vis false).complete .ok
    · exact h.complete .ok
  | charw => exact h.complete _

/-- Settles O48: every slot sends 8 bits, and the other writes are not of SCK. -/
theorem linesRestBetweenCommands : Obligations.LinesRestBetweenCommands := by
  refine ⟨⟨rfl, rfl, by simp [State.reset, risingEdges], by simp [State.reset, risingEdges], rfl⟩, ?_⟩
  intro s t i hb hs h
  obtain ⟨_, rfl⟩ | ⟨_, _, ha, _⟩ := exec_cases h
  · exact State.rests.perform hs i
  · simp [(awaiting_elim ha).1] at hb

end Sys2Proof.Machine
end

section
/-! SUPPORT. The output ports, the state after reset, and the step that takes a reset (10_state R28, R32). -/

namespace Sys2Proof.Machine

/-- `cmd_ready` on a busy block is the wait for a payload word (R72). -/
theorem cmdReady_of_busy {s : State} (hb : s.busy = true) :
    s.cmdReady = true ↔ s.phase = .lookup ∧ s.remain ≠ 0 ∧ ∃ len, s.cmd = some (.render len) := by
  have hready : s.cmdReady = s.awaiting := by simp [State.cmdReady, hb]
  rw [hready]
  constructor
  · intro ha
    obtain ⟨_, hp, hr, hc⟩ := awaiting_elim ha
    exact ⟨hp, hr, hc⟩
  · rintro ⟨hp, hr, _, hc⟩
    exact awaiting_intro hb hp hr hc

theorem wire_of_driven {s : State} (hd : s.driven = true) (level : Bool) : s.wire level = some level := if_pos hd

theorem wire_of_released {s : State} (hd : s.driven = false) (level : Bool) : s.wire level = none := by
  simp [State.wire, hd]

theorem donePort_iff (s : State) : s.donePort = true ↔ s.phase = .done := beq_iff_eq

/-- The boundary ends the `done` pulse (R73). -/
theorem boundary_donePort (s : State) : s.boundary.donePort = false := by
  have hp : s.boundary.phase ≠ .done := by
    rw [State.boundary_phase]
    split
    · decide
    · assumption
  simpa [State.donePort] using hp

/-- Settles O17. -/
theorem outputPorts : Obligations.OutputPorts := by
  intro s
  refine ⟨fun hd => ?_, fun hd => ?_, fun hb => ?_, cmdReady_of_busy, fun hb hp => ?_, donePort_iff s, fun _ => rfl,
    boundary_donePort s, rfl⟩
  · exact ⟨wire_of_driven hd _, wire_of_driven hd _, wire_of_driven hd _, wire_of_driven hd _⟩
  · exact ⟨wire_of_released hd _, wire_of_released hd _, wire_of_released hd _, wire_of_released hd _⟩
  · simp [State.cmdReady, hb]
  · rw [← Bool.not_eq_true, cmdReady_of_busy hb]
    exact fun h => hp h.1

/-- Settles O41: the boundary, then the reset of the state with the input taken. -/
theorem resetSetsEveryRegister : Obligations.ResetSetsEveryRegister := by
  intro s d rest hin
  have hreact : step s = .next (({ s.boundary with inputs := rest } : State).applyReset d) := by
    have hb : s.boundary.inputs = .reset d :: rest := s.boundary_inputs.trans hin
    simp only [step, State.transition, State.react, hb]
  rw [hreact]
  simp only [State.applyReset, State.withdrawPayload, State.boundary_words, State.boundary_remain]
  rfl

/-- Settles O43: each register by its definition; with no input and no word the step changes nothing. -/
theorem stateAfterReset : Obligations.StateAfterReset := by
  have idle : step State.reset = .next State.reset := by
    have hb : State.reset.boundary = State.reset := boundary_eq_self _ rfl (by decide)
    rw [step, State.transition, hb]
    rfl
  exact ⟨rfl, rfl, rfl, rfl, rfl, rfl, rfl, rfl, rfl, rfl, rfl, rfl, rfl, rfl, rfl, rfl, rfl, rfl, rfl, idle⟩

end Sys2Proof.Machine
end

section
/-! SUPPORT. The lookup index, the chain register and the display (20_memory R38, R39, R47 to R52). -/

namespace Sys2Proof.Machine

/-- Settles O6, by evaluating the index of each of the 256 codes. -/
theorem lookupIndexIsAlphabetPosition : Obligations.LookupIndexIsAlphabetPosition := by
  refine ⟨rfl, ?_⟩
  decide

/-- Settles O13: a capture is `shiftIn`, whose value R49 gives as arithmetic. -/
theorem chainCapturesOnRisingClock : Obligations.ChainCapturesOnRisingClock := by
  intro s l v
  refine ⟨(Frame.drive s l v).stages, ?_, fun hno => ?_⟩
  · rintro ⟨rfl, rfl, hsck, hd⟩
    have captured : (s.drive .sck true).shift = shiftIn s.data s.shift := by simp [State.drive_shift, hsck, hd]
    rw [captured, chainValue_shiftIn, Bool.toNat, Bool.cond_eq_ite]
  · rw [State.drive_shift, if_neg]
    simpa using hno

/-- Settles O14. -/
theorem chainStoresOnRisingLatch : Obligations.ChainStoresOnRisingLatch := by
  intro s l v
  simp [State.drive_store]

/-- The values sent as one number, the last in the lowest stage (R51). -/
theorem chainValue_reverse_append (vs l : List Byte) :
    chainValue (vs.reverse ++ l) = chainValue l * 2 ^ (8 * vs.length) + vs.foldl (fun n v => n * 256 + v.toNat) 0 := by
  have hpow : 256 ^ vs.length = 2 ^ (8 * vs.length) := by rw [Nat.pow_mul]
  rw [chainValue_append, chainValue_reverse, List.length_reverse, hpow, Nat.zero_mul, Nat.zero_add, Nat.add_comm,
    Nat.mul_comm]

/-- Settles O15: the slots sent stand before the old contents, and the chain keeps its number of stages. -/
theorem chainClosedForm : Obligations.ChainClosedForm := by
  intro s vs hd
  have sent : (vs.foldl (fun u v => State.shiftOut v u) s).shift = (vs.reverse ++ s.shift).take s.shift.length := by
    rw [shiftOut_foldl vs s hd]; rfl
  simp only [sent]
  refine ⟨?_, fun hlong => ?_, fun hshort => ?_⟩
  · rw [chainValue_take _ _ (by simp), chainValue_reverse_append]
  · exact List.take_append_of_le_length (by simpa using hlong)
  · rw [List.take_append, List.take_of_length_le (by simpa using hshort.le), List.length_reverse]

/-- Settles O16. -/
theorem displayShowsTheStoredStage : Obligations.DisplayShowsTheStoredStage := by
  intro s hd d
  have shown : s.display d = s.store[d]?.map fun b => if s.vis then b else 0 := if_pos hd
  refine ⟨fun b hb => ?_, fun hbeyond => ?_⟩
  · rw [shown, hb]; rfl
  · rw [shown, List.getElem?_eq_none hbeyond]; rfl

end Sys2Proof.Machine
end

section
/-! SUPPORT. A slot of a RENDER whose character is not supported (20_memory R39, 41_render R88, R92). -/

namespace Sys2Proof.Machine

/-- CHARW in payload position is the transfer of its word (R63). -/
theorem exec_charw_of_awaiting {s : State} (ha : s.awaiting = true) (w : Word) :
    exec (.charw w) s = .next (s.transfer w) := if_pos ha

/-- A failing lookup ends the RENDER with LOOKUP_ERROR after its last word, else drops the rest of the payload (R88). -/
theorem beginSlot_of_unsupported {s : State} {c : Byte} (p : Bool) (hd : s.driven = true) (hc : charIndex c = none) :
    s.beginSlot c p = if s.remain = 0 then State.ended 1 { s with hold := 0 } else { s with discard := true } := by
  have failed : s.failure = State.ended 1 { s with hold := 0 } := if_pos hd
  simp only [State.beginSlot, (resolveSlot_eq_none s.cfg c p).2 hc, failed]

/-- The same with the word that completes the slot counted down in the same transition (log 20). -/
theorem beginSlot_of_unsupported_word {s : State} {c : Byte} (p : Bool) (hd : s.driven = true)
    (hc : charIndex c = none) :
    ({ s with remain := s.remain - 1 } : State).beginSlot c p
      = if s.remain = 1 then State.ended 1 { s with hold := 0 }
        else { s with remain := s.remain - 1, discard := true } := by
  rw [beginSlot_of_unsupported p (by exact hd) hc]
  exact if_congr (sub_one_eq_zero s.remain) rfl rfl

/-- '.' is a supported character (R34). -/
theorem ne_pointChar_of_unsupported {c : Byte} (hc : charIndex c = none) : c ≠ pointChar := by
  rintro rfl
  exact absurd hc (by decide)

section
variable {s : State} (hdiscard : s.discard = false) (w : Word)
include hdiscard

/-! What a transferred word does before the payload is dropped, by `POINT_VARIANT` (R84, R85, R86). -/

theorem transfer_standalone (hv : s.cfg.pointVariant = .aStandalone) :
    s.transfer w = ({ s with remain := s.remain - 1 } : State).beginSlot (payloadChar w) false := by
  simp [State.transfer, State.payloadArrives, hdiscard, hv]

theorem transfer_foldNext (hv : s.cfg.pointVariant = .bFoldNext) (hc : payloadChar w ≠ pointChar) :
    s.transfer w = ({ s with remain := s.remain - 1 } : State).beginSlot (payloadChar w) s.pendp := by
  simp [State.transfer, State.payloadArrives, hdiscard, hv, hc]

theorem transfer_foldPrev_point (hv : s.cfg.pointVariant = .bFoldPrev) (hh : s.holdv = true)
    (hc : payloadChar w = pointChar) :
    s.transfer w = ({ s with remain := s.remain - 1, holdv := false } : State).beginSlot s.hold true := by
  simp [State.transfer, State.payloadArrives, hdiscard, hv, hh, hc]

theorem transfer_foldPrev_char (hv : s.cfg.pointVariant = .bFoldPrev) (hh : s.holdv = true)
    (hc : payloadChar w ≠ pointChar) :
    s.transfer w = ({ s with remain := s.remain - 1, hold := payloadChar w } : State).beginSlot s.hold false := by
  simp [State.transfer, State.payloadArrives, hdiscard, hv, hh, hc]

end

/-- A busy block that waits for no word makes a micro-step (R156). -/
theorem clockCycle_of_busy {s : State} (hb : s.busy = true) (ha : s.awaiting = false) (v : Bool) :
    s.clockCycle v = s.microStep := by
  unfold State.clockCycle
  rw [if_neg (by simp [ha]), if_pos hb]

/-- A cycle of `clk` with the lines driven and no `done` pulse to end: the boundary changes nothing. -/
theorem step_of_clock {s : State} {v : Bool} {rest : List Input} (hd : s.driven = true) (hp : s.phase ≠ .done)
    (hin : s.inputs = .clock v :: rest) : step s = ({ s with inputs := rest } : State).clockCycle v := by
  simp only [step, State.transition, boundary_eq_self s hd hp, State.react, hin]

/-- At the end of a frame the held character is the last slot (R92). -/
theorem microStep_of_held {s : State} {len : Byte} (hp : s.phase = .lookup) (hc : s.cmd = some (.render len))
    (hh : s.holdv = true) :
    s.microStep = .next (({ s with holdv := false } : State).beginSlot s.hold false) := by
  simp [State.microStep, State.lookupStep, hp, hc, hh]

/-- Settles O32: in each variant the word, or the end of the frame, completes a slot, whose lookup fails. -/
theorem charwUnsupported : Obligations.CharwUnsupported := by
  refine ⟨fun s w ha hdiscard hd => ?_, fun s len v rest hb hp hcmd hr hh hd hc hin => ?_⟩
  · rw [exec_charw_of_awaiting ha]
    refine ⟨fun hv hc => ?_, fun hv hc => ?_, fun hv hh hc => ⟨fun hpoint => ?_, fun hchar => ?_⟩⟩
    · rw [transfer_standalone hdiscard w hv, beginSlot_of_unsupported_word _ hd hc]
    · rw [transfer_foldNext hdiscard w hv (ne_pointChar_of_unsupported hc), beginSlot_of_unsupported_word _ hd hc]
    · rw [transfer_foldPrev_point hdiscard w hv hh hpoint]
      exact congrArg _ (beginSlot_of_unsupported_word (s := { s with holdv := false }) true hd hc)
    · rw [transfer_foldPrev_char hdiscard w hv hh hchar]
      exact congrArg _ (beginSlot_of_unsupported_word (s := { s with hold := payloadChar w }) false hd hc)
  · have ha : ({ s with inputs := rest } : State).awaiting = false := by simp [State.awaiting, hr]
    rw [step_of_clock hd (by simp [hp]) hin, clockCycle_of_busy (by exact hb) ha,
      microStep_of_held (by exact hp) (by exact hcmd) (by exact hh),
      beginSlot_of_unsupported false (by exact hd) (by exact hc)]
    exact congrArg _ (if_pos hr)

end Sys2Proof.Machine
end

section
/-! SUPPORT. Power-up, and the parameters that nothing writes (20_memory R38, R48, R54, 70_reset_and_hazards R141). -/

namespace Sys2Proof.Machine

/-- The step that takes a reset (R142). -/
theorem step_of_reset (s : State) (d : ResetDraws) (rest : List Input) :
    step { s with inputs := .reset d :: rest } = .next (({ s.boundary with inputs := rest } : State).applyReset d) := by
  rw [step, State.transition, State.boundary_with_inputs]; rfl

/-- The step that takes a power-up (R141). -/
theorem step_of_powerUp (s : State) (d : ResetDraws) (a b : List Byte) (rest : List Input) :
    step { s with inputs := .powerUp d a b :: rest }
      = .next (({ s.boundary with inputs := rest } : State).powerUp d a b) := by
  rw [step, State.transition, State.boundary_with_inputs]; rfl

/-- The boundary changes no number of stages. -/
theorem boundary_ndigits (s : State) : s.boundary.ndigits = s.ndigits := by
  rw [State.ndigits, State.boundary_shift]
  split
  · rfl
  · simp [freeChain, State.ndigits]

/-- With as many stages drawn as there are, power-up is the reset with the chain as drawn (R48). -/
theorem powerUp_eq (d : ResetDraws) {a b : List Byte} {s : State} (ha : a.length = s.ndigits)
    (hb : b.length = s.ndigits) :
    s.powerUp d a b = { s.applyReset d with shift := a, store := b } := by
  have hsa : stages s.ndigits a = a := ha ▸ stages_self a
  have hsb : stages s.ndigits b = b := hb ▸ stages_self b
  rw [State.powerUp, hsa, hsb]

/-- Settles O42. -/
theorem powerUpDrawsTheChain : Obligations.PowerUpDrawsTheChain := by
  intro s t u d a b rest ha hb ht hu
  rw [step_of_powerUp] at ht
  rw [step_of_reset] at hu
  cases ht
  cases hu
  have hn : ({ s.boundary with inputs := rest } : State).ndigits = s.shift.length := boundary_ndigits s
  exact powerUp_eq d (ha.trans hn.symm) (hb.trans hn.symm)

theorem takeCancel_cfg (s : State) : s.takeCancel.cfg = s.cfg := by
  unfold State.takeCancel
  split
  · rfl
  · simp

/-- No turn of the block writes a parameter (R54). -/
theorem Turn.cfg {u t : State} (h : Turn u t) : t.cfg = u.cfg := by
  cases h with
  | stay => rfl
  | perform i => exact (Frame.perform u i).cfg
  | transfer w => exact cfg_of_outer (transfer_silent u w).1
  | accept h => exact cfg_of_outer (accept_silent h u).1
  | micro _ _ _ hm => exact (Frame.microStep hm).cfg
  | cancel => exact takeCancel_cfg u

/-- No reset and no power-up writes one (R150). -/
theorem TakesReset.cfg {s t : State} (h : TakesReset s t) : t.cfg = s.cfg := by
  cases h <;> exact s.boundary_cfg

/-- Settles O50: a step is a reset or a turn of the block after its boundary. -/
theorem noStepWritesTheParameters : Obligations.NoStepWritesTheParameters := by
  intro s t h
  obtain hr | ⟨_, _, _, turn⟩ := step_cases h
  · exact hr.cfg
  · exact turn.cfg.trans s.boundary_cfg

end Sys2Proof.Machine
end

section
/-! SUPPORT. The words of a command: the decoder as the inverse of the encoder, and the illegal words (30_encoding R61 to R68). -/

namespace Sys2Proof

/-! ### An instruction is its header and its payload -/

/-- The words after the first: the frame of a RENDER (R63, R68). -/
def Instr.payload : Instr → List Word
  | .render frame => frame
  | .sendDigit _ _ => []
  | .enable => []
  | .disable => []
  | .shutdown => []
  | .charw _ => []

/-- A command is encoded as the word of its header and its payload (R60, R70). -/
theorem encode_of_header {i : Instr} {h : Header} (hi : i.header = some h) :
    encode i = encodeHeader h :: i.payload := by
  cases i with
  | charw => cases hi
  | sendDigit | render | enable | disable | shutdown => cases hi; rfl

/-- The length rule, for every instruction (R68). -/
theorem encode_length (i : Instr) : (encode i).length = i.wordCount := by
  cases i with
  | sendDigit p c => exact Laws.EncodedLength.sendDigit p c
  | render frame => exact Laws.EncodedLength.render frame
  | enable => exact Laws.EncodedLength.enable
  | disable => exact Laws.EncodedLength.disable
  | shutdown => exact Laws.EncodedLength.shutdown
  | charw w => exact Laws.EncodedLength.charw w

/-- A header finds its payload at the head of the words after it; `LEN` counts any frame of at most 255 words (R69). -/
theorem withPayload_payload {i : Instr} {h : Header} (hi : i.header = some h) (hw : i.wellFormed = true)
    (rest : List Word) : withPayload h (i.payload ++ rest) = .ok (i, rest) := by
  cases i with
  | charw => cases hi
  | sendDigit | enable | disable | shutdown => cases hi; rfl
  | render frame =>
    cases hi
    have hlen : (BitVec.ofNat 8 frame.length).toNat = frame.length := by
      have hmax : frame.length ≤ 255 := of_decide_eq_true hw
      rw [BitVec.toNat_ofNat]; omega
    simp [withPayload, Instr.payload, hlen]

/-- What a header takes is a well-formed command with that header, and its payload is the words taken. -/
theorem withPayload_eq_ok {h : Header} {ws rest : List Word} {i : Instr} (hp : withPayload h ws = .ok (i, rest)) :
    i.wellFormed = true ∧ i.header = some h ∧ ws = i.payload ++ rest := by
  cases h with
  | sendDigit | enable | disable | shutdown => cases hp; exact ⟨rfl, rfl, rfl⟩
  | render len =>
    simp only [withPayload] at hp
    split at hp
    next hle =>
      cases hp
      have hlen : (ws.take len.toNat).length = len.toNat := List.length_take_of_le hle
      have hmax : len.toNat ≤ 255 := Nat.le_of_lt_succ len.isLt
      refine ⟨?_, ?_, (List.take_append_drop len.toNat ws).symm⟩
      · simp [Instr.wellFormed, maxFrame, hlen, hmax]
      · simp only [Instr.header, hlen, BitVec.ofNat_toNat, BitVec.setWidth_eq]
    next => cases hp

/-- The decoder reads a header and what it takes. -/
theorem decode_cons_of_header {w : Word} {h : Header} (hd : decodeHeader w = .ok h) (ws : List Word) :
    decode (w :: ws) = withPayload h ws := by
  simp only [decode, hd]

/-- A word that is no command is rejected whatever comes after it. -/
theorem decode_cons_of_error {w : Word} {e : Reject} (hd : decodeHeader w = .error e) (ws : List Word) :
    decode (w :: ws) = .error e := by
  simp only [decode, hd]

/-- Decoding inverts encoding, for every command and any words after it (R61 to R64, R68). -/
theorem decode_encode {i : Instr} (hi : i.header ≠ none) (hw : i.wellFormed = true) (rest : List Word) :
    decode (encode i ++ rest) = .ok (i, rest) := by
  obtain ⟨h, hh⟩ := Option.ne_none_iff_exists'.1 hi
  rw [encode_of_header hh, List.cons_append, decode_cons_of_header (decodeHeader_encodeHeader h),
    withPayload_payload hh hw]

/-- Encoding inverts decoding: a decoded command was read from its own encoding (R74). -/
theorem decode_eq_ok {ws rest : List Word} {i : Instr} (hd : decode ws = .ok (i, rest)) :
    i.wellFormed = true ∧ i.header ≠ none ∧ ws = encode i ++ rest := by
  cases ws with
  | nil => cases hd
  | cons w ws =>
    cases hh : decodeHeader w with
    | error e => rw [decode_cons_of_error hh] at hd; cases hd
    | ok h =>
      rw [decode_cons_of_header hh] at hd
      obtain ⟨hwf, hhead, rfl⟩ := withPayload_eq_ok hd
      refine ⟨hwf, by simp [hhead], ?_⟩
      rw [encode_of_header hhead, encodeHeader_of_decodeHeader w h hh, List.cons_append]

/-! ### The decoder of one word, by opcode (R65) -/

section
variable {w : Word}

theorem decodeHeader_formatS (ho : opcode w = 1#4) :
    decodeHeader w
      = if w.extractLsb' 9 3 = 0#3 then .ok (.sendDigit (w.getLsbD 8) (lowByte w)) else .error .reservedBits := by
  simp [decodeHeader, ho]

theorem decodeHeader_formatR (ho : opcode w = 2#4) :
    decodeHeader w = if w.extractLsb' 8 4 = 0#4 then .ok (.render (lowByte w)) else .error .reservedBits := by
  simp [decodeHeader, ho]

/-- Format Z, at each of its three opcodes (R64). -/
theorem decodeHeader_formatZ (ho : opcode w = 3#4 ∨ opcode w = 4#4 ∨ opcode w = 5#4) :
    ∃ h, decodeHeader w = if w.extractLsb' 0 12 = 0#12 then .ok h else .error .reservedBits := by
  obtain ho | ho | ho := ho
  · exact ⟨.enable, by simp [decodeHeader, ho]⟩
  · exact ⟨.disable, by simp [decodeHeader, ho]⟩
  · exact ⟨.shutdown, by simp [decodeHeader, ho]⟩

theorem decodeHeader_payloadOpcode (ho : opcode w = 0#4) : decodeHeader w = .error .payloadOpcode := by
  simp [decodeHeader, ho]

theorem decodeHeader_reservedOpcode (ho : 6#4 ≤ opcode w) : decodeHeader w = .error .reservedOpcode := by
  have hne : ∀ o : BitVec 4, 6#4 ≤ o → o ≠ 0#4 ∧ o ≠ 1#4 ∧ o ≠ 2#4 ∧ o ≠ 3#4 ∧ o ≠ 4#4 ∧ o ≠ 5#4 := by decide
  obtain ⟨h0, h1, h2, h3, h4, h5⟩ := hne _ ho
  rw [decodeHeader, if_neg h1, if_neg h2, if_neg h3, if_neg h4, if_neg h5, if_neg h0]

end

/-! ### Illegal words (R67) -/

/-- The rule of illegal words: opcode 0000 or 0110 to 1111, or a reserved field of the format that is not zero. -/
def IllegalWord (w : Word) : Prop :=
  opcode w = 0#4 ∨ 6#4 ≤ opcode w ∨ (opcode w = 1#4 ∧ w.extractLsb' 9 3 ≠ 0#3)
    ∨ (opcode w = 2#4 ∧ w.extractLsb' 8 4 ≠ 0#4)
    ∨ (3#4 ≤ opcode w ∧ opcode w ≤ 5#4 ∧ w.extractLsb' 0 12 ≠ 0#12)

/-- A format with a reserved field decodes to a header exactly when the field is zero. -/
theorem no_header_of_field_iff {p : Prop} [Decidable p] {d : Except Reject Header} {h : Header} {e : Reject}
    (hd : d = if p then .ok h else .error e) : (∀ h', d ≠ .ok h') ↔ ¬ p := by
  subst hd
  by_cases hp : p <;> simp [hp]

/-- The words that are no command are those of the rule (R67, R74). -/
theorem no_header_iff_illegalWord (w : Word) : (∀ h, decodeHeader w ≠ .ok h) ↔ IllegalWord w := by
  have formatZ (hz : opcode w = 3#4 ∨ opcode w = 4#4 ∨ opcode w = 5#4) :
      (∀ h, decodeHeader w ≠ .ok h) ↔ IllegalWord w := by
    obtain ⟨_, hd⟩ := decodeHeader_formatZ hz
    rw [no_header_of_field_iff hd]
    obtain ho | ho | ho := hz <;> simp [IllegalWord, ho]
  obtain ho | ho | ho | ho | ho | ho | ⟨ho, _⟩ := opcode_cases (opcode w)
  · simp [decodeHeader_payloadOpcode ho, IllegalWord, ho]
  · rw [no_header_of_field_iff (decodeHeader_formatS ho)]
    simp [IllegalWord, ho]
  · rw [no_header_of_field_iff (decodeHeader_formatR ho)]
    simp [IllegalWord, ho]
  · exact formatZ (.inl ho)
  · exact formatZ (.inr (.inl ho))
  · exact formatZ (.inr (.inr ho))
  · simp [decodeHeader_reservedOpcode ho, IllegalWord, ho]

/-- One word is rejected for its own bits alone: no word and missing payload are reasons of lists of words. -/
theorem decodeHeader_eq_error {w : Word} {e : Reject} (hd : decodeHeader w = .error e) :
    e = .payloadOpcode ∨ e = .reservedOpcode ∨ e = .reservedBits := by
  unfold decodeHeader at hd
  repeat' split at hd
  all_goals cases hd
  all_goals simp

/-- An illegal word is rejected, for one of the reasons of R67. -/
theorem IllegalWord.rejected {w : Word} (hw : IllegalWord w) :
    ∃ e, decodeHeader w = .error e ∧ (e = .payloadOpcode ∨ e = .reservedOpcode ∨ e = .reservedBits) := by
  cases hd : decodeHeader w with
  | ok h => exact absurd hd ((no_header_iff_illegalWord w).2 hw h)
  | error e => exact ⟨e, rfl, decodeHeader_eq_error hd⟩

/-! ### Words of the opcode table -/

/-- A table word that is no command is that one word. -/
theorem tableWords_of_error {w : Word} {e : Reject} (hd : decodeHeader w = .error e) : tableWords 16 w.toNat = [w] := by
  have first : BitVec.ofNat 16 (w.toNat % 2 ^ 16) = w := by
    rw [Nat.mod_eq_of_lt w.isLt, BitVec.ofNat_toNat, BitVec.setWidth_eq]
  simp only [tableWords, first, hd]

/-- A word of format W has opcode 0000 (R63). -/
theorem opcode_of_highByte {w : Word} (hw : highByte w = 0#8) : opcode w = 0#4 := by
  have hop : opcode w = (highByte w).extractLsb' 4 4 := by
    apply BitVec.eq_of_getLsbD_eq
    intro i hi
    have h8 : 4 + i < 8 := by omega
    simp [opcode, highByte, hi, h8, ← Nat.add_assoc]
  rw [hop, hw]; rfl

/-- A table word of format W reads as CHARW of itself (R63). -/
theorem decodeTableWord_of_formatW {w : Word} (hw : highByte w = 0#8) :
    decodeTableWord 16 w.toNat = some (.charw w) := by
  have hd := decodeHeader_payloadOpcode (opcode_of_highByte hw)
  have hW : isFormatW w = true := by simp [isFormatW, hw]
  simp only [decodeTableWord, tableWords_of_error hd, decode_cons_of_error hd, hW, if_true, decodePayload]

/-! ### The statements -/

/-- Settles O1. -/
theorem decodeOfEncodeIsTheInstruction : Obligations.DecodeOfEncodeIsTheInstruction :=
  ⟨fun _ rest hw hi => decode_encode hi hw rest, fun _ => ⟨rfl, decodeTableWord_of_formatW⟩⟩

/-- Settles O2. -/
theorem decodedWordsAreTheEncoding : Obligations.DecodedWordsAreTheEncoding := by
  intro ws rest i hd
  obtain ⟨hwf, hhead, hws⟩ := decode_eq_ok hd
  refine ⟨hwf, hhead, hws, ?_⟩
  rw [hws, List.length_append, encode_length]

/-- Settles O3. -/
theorem illegalWordsAreThoseOfTheRule : Obligations.IllegalWordsAreThoseOfTheRule := no_header_iff_illegalWord

/-- Settles O4, by evaluating the decoder. -/
theorem sampleWordsDecode : Obligations.SampleWordsDecode :=
  ⟨rfl, rfl, rfl, rfl, rfl, rfl, rfl, rfl, rfl, rfl⟩

end Sys2Proof
end

section
/-! SUPPORT. Steps with nothing asked from outside, and payload words (30_encoding R63, R67, R68, R72, R73, 41_render R84 to R86,
R92). -/

namespace Sys2Proof.Machine

/-! ### A payload word that is dropped, held, folded or sent -/

/-- A dropped word only counts down; the last one ends the RENDER (R88, R92). -/
theorem transfer_of_discard {s : State} (hdiscard : s.discard = true) (w : Word) :
    s.transfer w = if s.remain = 1 then s.failure else { s with remain := s.remain - 1 } := by
  unfold State.transfer State.payloadArrives
  rw [if_pos hdiscard]
  exact if_congr (sub_one_eq_zero s.remain) rfl rfl

section
variable {s : State} (hdiscard : s.discard = false) (w : Word)
include hdiscard

/-- The first character of a frame under `B_FOLD_PREV` is held (R85). -/
theorem transfer_foldPrev_first (hp : s.phase = .lookup) (hv : s.cfg.pointVariant = .bFoldPrev)
    (hh : s.holdv = false) :
    s.transfer w = { s with remain := s.remain - 1, hold := payloadChar w, holdv := true } := by
  have held : s.transfer w
      = ({ s with remain := s.remain - 1, hold := payloadChar w, holdv := true } : State).nextSlot := by
    simp [State.transfer, State.payloadArrives, hdiscard, hv, hh]
  rw [held, nextSlot_eq_lookup _ (.inr rfl), ← hp]

/-- A point under `B_FOLD_NEXT` sets the pending point; after the last word comes the latch pulse (R86). -/
theorem transfer_foldNext_point (hv : s.cfg.pointVariant = .bFoldNext) (hh : s.holdv = false)
    (hc : payloadChar w = pointChar) :
    s.transfer w
      = { s with
          remain := s.remain - 1, pendp := true, phase := if s.remain = 1 then .latchHi else .lookup } := by
  have pends : s.transfer w = ({ s with remain := s.remain - 1, pendp := true } : State).nextSlot := by
    simp [State.transfer, State.payloadArrives, hdiscard, hv, hc]
  rw [pends]
  by_cases hr : s.remain = 1
  · rw [nextSlot_eq_latch _ (by exact (sub_one_eq_zero s.remain).2 hr) (by exact hh), if_pos hr]
  · rw [nextSlot_eq_lookup _ (.inl (by exact mt (sub_one_eq_zero s.remain).1 hr)), if_neg hr]

end

/-- Settles O30: in each variant the word is held, or pends, or completes a slot, whose lookup gives its value. -/
theorem charwAdvancesTheFrame : Obligations.CharwAdvancesTheFrame := by
  intro s w ha hdiscard
  obtain ⟨_, hp, _⟩ := awaiting_elim ha
  rw [exec_charw_of_awaiting ha]
  refine ⟨fun v hv hres => ?_, fun hv hh => ?_, fun v hv hh hc hres => ?_, fun v hv hh hc hres => ?_,
    fun hv hh hc => ?_, fun v hv hc hres => ?_⟩
  · rw [transfer_standalone hdiscard w hv, beginSlot_of_some _ _ _ v (by exact hres)]
  · rw [transfer_foldPrev_first hdiscard w hp hv hh]
  · rw [transfer_foldPrev_point hdiscard w hv hh hc, beginSlot_of_some _ _ _ v (by exact hres)]
  · rw [transfer_foldPrev_char hdiscard w hv hh hc, beginSlot_of_some _ _ _ v (by exact hres)]
  · rw [transfer_foldNext_point hdiscard w hv hh hc]
  · rw [transfer_foldNext hdiscard w hv hc, beginSlot_of_some _ _ _ v (by exact hres)]

/-- Settles O31. -/
theorem charwDroppedAfterFailure : Obligations.CharwDroppedAfterFailure := by
  intro s w ha hdiscard
  rw [exec_charw_of_awaiting ha, transfer_of_discard hdiscard]
  refine ⟨fun hr => ?_, fun hr hd => ?_, fun hr hd => ?_⟩
  · rw [if_neg hr]
  · rw [if_pos hr, State.failure, if_pos hd, endRender_eq_ended]; rfl
  · rw [if_pos hr, State.failure, if_neg (by simp [hd]), complete_eq_ended]; rfl

/-- Settles O33: an idle block waits for no payload word, so the word runs as an illegal one. -/
theorem charwOutsidePayloadIsIllegal : Obligations.CharwOutsidePayloadIsIllegal := by
  intro s w hb
  have ha : ¬ s.awaiting = true := fun ha => by simp [(awaiting_elim ha).1] at hb
  have hexec : exec (.charw w) s = s.whenIdle s.illegal := if_neg ha
  rw [hexec, whenIdle_eq_next]
  exact ⟨hb, rfl⟩

/-- Settles O5: the code that stands for the other words has no ROM index. -/
theorem payloadWordNamesItsCharacter : Obligations.PayloadWordNamesItsCharacter := by
  intro w
  refine ⟨fun hw => if_pos hw, fun hw => ?_⟩
  have hc : payloadChar w = unsupportedChar := if_neg hw
  rw [hc]
  decide

/-! ### One step -/

/-- With nothing asked from outside a step is the boundary, then the operation level (D1). -/
theorem step_of_no_input {s : State} (hin : s.inputs = []) : step s = s.boundary.operate := by
  simp only [step, State.transition, State.react, State.boundary_inputs, hin]

/-- An idle block executes the command at the head of its words (R74). -/
theorem operate_of_decode {s : State} {i : Instr} {rest : List Word} (hb : s.busy = false)
    (hd : decode s.words = .ok (i, rest)) : s.operate = exec i { s with words := rest } := by
  simp [State.operate, hb, hd]

/-- An idle block takes an illegal word alone (R67). -/
theorem operate_of_illegal {s : State} {w : Word} {rest : List Word} (hb : s.busy = false) (hw : s.words = w :: rest)
    (hill : IllegalWord w) : s.operate = .next (State.ended 3 { s with words := rest }) := by
  obtain ⟨e, hd, he⟩ := hill.rejected
  have hdec : decode s.words = .error e := hw ▸ decode_cons_of_error hd rest
  have hdrop : s.words.drop 1 = rest := by rw [hw]; rfl
  unfold State.operate
  rw [if_neg (by simp [hb]), hdec, ← hdrop]
  obtain rfl | rfl | rfl := he <;> rfl

/-- A cycle gives a RENDER that waits the next word, whatever its bits (R63, R72). -/
theorem clockCycle_of_awaiting {s : State} {w : Word} {rest : List Word} (ha : s.awaiting = true)
    (hw : s.words = w :: rest) : s.clockCycle true = exec (.charw w) { s with words := rest } := by
  simp [State.clockCycle, ha, hw, decodePayload]

/-- A cycle that presents no word leaves a RENDER that waits as it is (R72). -/
theorem clockCycle_of_withheld {s : State} (ha : s.awaiting = true) : s.clockCycle false = .next s := by
  simp [State.clockCycle, ha]

/-- Settles O34. -/
theorem stepExecutesTheDecodedInstruction : Obligations.StepExecutesTheDecodedInstruction := by
  refine ⟨fun s i rest hin hb hd => ?_, fun s w rest hin ha hw => ?_⟩
  · rw [step_of_no_input hin]
    exact operate_of_decode (s.boundary_busy.trans hb) (s.boundary_words.symm ▸ hd)
  · have hbusy : s.boundary.busy = true := s.boundary_busy.trans (awaiting_elim ha).1
    have hoperate : s.boundary.operate = s.boundary.clockCycle true := if_pos hbusy
    rw [step_of_no_input hin, hoperate]
    exact clockCycle_of_awaiting (boundary_awaiting ha) (s.boundary_words.trans hw)

theorem endPulse_eq (s : State) : s.endPulse = { s with phase := if s.phase = .done then .idle else s.phase } := by
  unfold State.endPulse; split <;> rfl

/-- Settles O35: the end of the pulse, then the drift, which only released lines allow. -/
theorem boundaryEffect : Obligations.BoundaryEffect := by
  intro s
  rw [State.boundary, endPulse_eq]
  exact ⟨fun hd => if_pos hd, fun hd => if_neg (by simp [hd])⟩

/-- Settles O36. -/
theorem illegalWordIsConsumedAlone : Obligations.IllegalWordIsConsumedAlone := by
  refine ⟨fun s w rest hin hb hcmd hclear hw hill => ?_, .inl (by decide), .inr (.inl (by decide))⟩
  rw [step_of_no_input hin, operate_of_illegal (s.boundary_busy.trans hb) (s.boundary_words.trans hw) hill,
    ended_of_clear _ 3 (by simpa using hb) (by simpa using hcmd) (by simpa [State.transientsClear] using hclear)]

/-- Settles O38: the boundary does nothing then, and neither does the cycle. -/
theorem withheldPayloadWaits : Obligations.WithheldPayloadWaits := by
  intro s rest ha hd hin
  obtain ⟨_, hp, _⟩ := awaiting_elim ha
  rw [step_of_clock hd (by simp [hp]) hin]
  exact clockCycle_of_withheld ha

end Sys2Proof.Machine
end

section
/-! SUPPORT. SEND_DIGIT at the operation level: the slot value, the one slot sent, and what its events show (40_send-digit R75
to R81). -/

namespace Sys2Proof.Machine

/-! ### The slot value (R76) -/

/-- The mask of the decimal point is bit 3 alone (R36). -/
theorem getLsbD_pointMask {i : Nat} (hi : i < 8) : pointMask.getLsbD i = decide (i = 3) := by
  have all : ∀ k : Fin 8, pointMask.getLsbD k = decide (k.val = 3) := by decide
  exact all ⟨i, hi⟩

theorem getLsbD_slotValue (p : Bool) (g : Byte) {i : Nat} (hi : i < 8) :
    (slotValue p g).getLsbD i = (g.getLsbD i || (p && decide (i = 3))) := by
  rw [slotValue, BitVec.getLsbD_or]
  cases p with
  | false => simp
  | true => rw [if_pos rfl, getLsbD_pointMask hi, Bool.true_and]

/-- A forced point hides the glyph's own bit 3 (R81). -/
theorem slotValue_true_xor_pointMask (g : Byte) : slotValue true (g ^^^ pointMask) = slotValue true g := by
  apply BitVec.eq_of_getLsbD_eq
  intro i hi
  rw [getLsbD_slotValue true _ hi, getLsbD_slotValue true g hi, BitVec.getLsbD_xor, getLsbD_pointMask hi]
  cases g.getLsbD i <;> simp

/-- Settles O7. -/
theorem pointInjectionSetsBitThreeOnly : Obligations.PointInjectionSetsBitThreeOnly := fun p g _ hi =>
  getLsbD_slotValue p g hi

/-! ### What SEND_DIGIT does, by its tests (R75, R80) -/

/-- On an idle block `exec` answers every instruction (R151). -/
theorem exec_of_idle {s : State} (hb : s.busy = false) (i : Instr) : exec i s = .next (s.perform i) := by
  cases i with
  | charw w => exact charwOutsidePayloadIsIllegal s w hb
  | sendDigit | render | enable | disable | shutdown => exact whenIdle_eq_next.2 ⟨hb, rfl⟩

section
variable {s : State} {c : Byte} (p : Bool)

theorem sendDigit_of_released (hd : s.driven = false) : s.sendDigit p c = s.ended 2 := by
  simp [State.sendDigit, hd, complete_eq_ended, Code.bits]

theorem sendDigit_of_unsupported (hd : s.driven = true) (hc : charIndex c = none) : s.sendDigit p c = s.ended 1 := by
  simp [State.sendDigit, hd, (resolveSlot_eq_none s.cfg c p).2 hc, complete_eq_ended, Code.bits]

theorem sendDigit_of_resolved {v : Byte} (hd : s.driven = true) (hv : resolveSlot s.cfg c p = some v) :
    s.sendDigit p c = (s.shiftOut v).complete .ok := by
  simp [State.sendDigit, hd, hv]

theorem exec_sendDigit_of_idle (hb : s.busy = false) : exec (.sendDigit p c) s = .next (s.sendDigit p c) :=
  exec_of_idle hb (.sendDigit p c)

end

/-- Settles O8: the slot of a supported character, whose bits the chain takes as one stage. -/
theorem sendDigitSendsOneSlot : Obligations.SendDigitSendsOneSlot := by
  intro s p c i hb hd hc
  rw [exec_sendDigit_of_idle p hb, sendDigit_of_resolved p hd (resolveSlot_of_index s.cfg c p i hc),
    shiftOut_eq s _ hd, complete_eq_ended]
  rfl

/-- Settles O9. -/
theorem sendDigitExceptions : Obligations.SendDigitExceptions := by
  intro s p c hb hcmd hclear
  refine ⟨fun hd => ?_, fun hd hc => ?_, fun hd hc => ?_⟩
  · rw [exec_sendDigit_of_idle p hb, sendDigit_of_released p hd, ended_of_clear s 2 hb hcmd hclear]
  · rw [exec_sendDigit_of_idle p hb, sendDigit_of_unsupported p hd hc, ended_of_clear s 1 hb hcmd hclear]
  · obtain ⟨i, hi⟩ := Option.ne_none_iff_exists'.1 hc
    exact ⟨_, sendDigitSendsOneSlot s p c i hb hd hi, rfl⟩

/-! ### What the 24 events show (R78, R81) -/

/-- A slot makes 8 falling edges of SCK, or 7 if SCK is low before it (R78). -/
theorem fallingEdges_slotEvents (v : Byte) (a : Bool) :
    fallingEdges .sck a (slotEvents v) = if a then 8 else 7 := by
  cases a <;> simp [slotEvents, slotBits, cellEvents, fallingEdges]

/-- A slot writes SCK and DATA alone. -/
theorem line_of_mem_slotEvents {v : Byte} {e : Event} (he : e ∈ slotEvents v) : e.line = .sck ∨ e.line = .data := by
  obtain ⟨b, _, hb⟩ := List.mem_flatMap.1 he
  simp only [cellEvents, List.mem_cons, List.not_mem_nil, or_false] at hb
  obtain rfl | rfl | rfl := hb
  · exact .inl rfl
  · exact .inr rfl
  · exact .inl rfl

/-- A line that is not written has no edge. -/
theorem edges_of_not_written {l : Line} {new : List Event} (h : ∀ e ∈ new, e.line ≠ l) (a : Bool) :
    risingEdges l a new = 0 ∧ fallingEdges l a new = 0 := by
  induction new with
  | nil => exact ⟨rfl, rfl⟩
  | cons e new ih =>
    obtain ⟨he, hnew⟩ := List.forall_mem_cons.1 h
    simp only [risingEdges, fallingEdges, if_neg he]
    exact ih hnew

/-- Settles O10. -/
theorem sendDigitEdgeCounts : Obligations.SendDigitEdgeCounts := by
  intro s p c hb hd hc
  obtain ⟨i, hi⟩ := Option.ne_none_iff_exists'.1 hc
  have quiet : ∀ (v : Byte) (l : Line), l = .latch ∨ l = .vis → ∀ e ∈ slotEvents v, e.line ≠ l := by
    rintro v l (rfl | rfl) e he <;> obtain h | h := line_of_mem_slotEvents he <;> simp [h]
  refine ⟨_, _, sendDigitSendsOneSlot s p c i hb hd hi, rfl, rfl, ?_⟩
  obtain ⟨hrise, _, _, hlength⟩ := slotEvents_edges (s.cfg.glyph[i] ||| (if p then 0x08 else 0x00)) s.sck
  obtain ⟨hlatchUp, hlatchDown⟩ := edges_of_not_written (quiet _ .latch (.inl rfl)) s.latch
  obtain ⟨hvisUp, hvisDown⟩ := edges_of_not_written (quiet _ .vis (.inr rfl)) s.vis
  exact ⟨hlength, hrise, fallingEdges_slotEvents _ _, hlatchUp, hlatchDown, hvisUp, hvisDown⟩

/-- DATA sampled at the rising edges of bit cells gives their bits, from any levels (R55, R81). -/
theorem sampledBits_cells (bs : List Bool) (sck data : Bool) : sampledBits sck data (bs.flatMap cellEvents) = bs := by
  induction bs generalizing sck data with
  | nil => rfl
  | cons b bs ih => simp [cellEvents, sampledBits, ih]

/-- The events of a slot are read back as its value (R81). -/
theorem bitsValue_sampledBits_slotEvents (v : Byte) (sck data : Bool) :
    bitsValue (sampledBits sck data (slotEvents v)) = v := by
  rw [slotEvents, sampledBits_cells, bitsValue, concat_slotBits]

/-- Settles O11. -/
theorem slotRoundTrip : Obligations.SlotRoundTrip := by
  refine ⟨fun s p c i hb hd hc hshift => ?_, fun g => (slotValue_true_xor_pointMask g).symm⟩
  refine ⟨_, _, sendDigitSendsOneSlot s p c i hb hd hc, rfl, rfl, ?_, bitsValue_sampledBits_slotEvents _ _ _, ?_, ?_⟩
  · rw [slotEvents, sampledBits_cells]; rfl
  · rintro rfl
    exact BitVec.or_zero
  · obtain ⟨b, rest, hcons⟩ := List.exists_cons_of_ne_nil hshift
    simp [State.ended, hcons]

/-- Settles O12: the first SEND_DIGIT leaves the block idle with its lines driven and the parameters as they were. -/
theorem noPointBitLeakage : Obligations.NoPointBitLeakage := by
  intro s c i hb hd hc
  exact ⟨_, _, sendDigitSendsOneSlot s true c i hb hd hc, sendDigitSendsOneSlot _ false c i rfl hd hc, rfl,
    BitVec.or_zero, rfl, rfl⟩

end Sys2Proof.Machine
end

section
/-! SUPPORT. What the block does in a cycle does not depend on what is asked from outside later, and runs of cycles within a
bound (92_eei_decisions D1). -/

namespace Sys2Proof.Machine

/-! ### The operations of a cycle leave the inputs alone and do not look at them (D1) -/

theorem failure_withInputs (s : State) (x : List Input) :
    ({ s with inputs := x } : State).failure = { s.failure with inputs := x } := by
  unfold State.failure
  split <;> rfl

theorem nextSlot_withInputs (s : State) (x : List Input) :
    ({ s with inputs := x } : State).nextSlot = { s.nextSlot with inputs := x } := by
  unfold State.nextSlot
  split <;> rfl

theorem beginSlot_withInputs (s : State) (c : Byte) (p : Bool) (x : List Input) :
    ({ s with inputs := x } : State).beginSlot c p = { s.beginSlot c p with inputs := x } := by
  simp only [State.beginSlot, failure_withInputs]
  cases resolveSlot s.cfg c p with
  | some v => rfl
  | none =>
    by_cases hr : s.remain = 0
    · simp only [if_pos hr]
    · simp only [if_neg hr]

theorem payloadArrives_withInputs (s : State) (c : Byte) (x : List Input) :
    ({ s with inputs := x } : State).payloadArrives c = { s.payloadArrives c with inputs := x } := by
  by_cases hdis : s.discard
  · by_cases hr : s.remain = 0
    · simp only [State.payloadArrives, if_pos hdis, if_pos hr, failure_withInputs]
    · simp only [State.payloadArrives, if_pos hdis, if_neg hr]
  simp only [State.payloadArrives, if_neg hdis]
  cases s.cfg.pointVariant with
  | aStandalone => exact beginSlot_withInputs ..
  | bFoldPrev =>
    by_cases hh : s.holdv
    · by_cases hc : c = pointChar
      · simp only [if_pos hh, if_pos hc]
        exact beginSlot_withInputs { s with holdv := false } ..
      · simp only [if_pos hh, if_neg hc]
        exact beginSlot_withInputs { s with hold := c } ..
    · simp only [if_neg hh]
      exact nextSlot_withInputs { s with hold := c, holdv := true } x
  | bFoldNext =>
    by_cases hc : c = pointChar
    · simp only [if_pos hc]
      exact nextSlot_withInputs { s with pendp := true } x
    · simp only [if_neg hc]
      exact beginSlot_withInputs ..

theorem transfer_withInputs (s : State) (w : Word) (x : List Input) :
    ({ s with inputs := x } : State).transfer w = { s.transfer w with inputs := x } :=
  payloadArrives_withInputs { s with remain := s.remain - 1 } ..

theorem accept_withInputs (s : State) (h : Header) (x : List Input) :
    ({ s with inputs := x } : State).accept h = { s.accept h with inputs := x } := by
  cases h with
  | render len =>
    simp only [State.accept]
    split
    · split <;> rfl
    · rfl
  | sendDigit | enable | disable | shutdown =>
    simp only [State.accept]
    split <;> rfl

/-! ### Cycles within a bound -/

/-- Some number of cycles, at most `bound`, leads from one state to the other. -/
def Within (bound : Nat) (s t : State) : Prop := ∃ n ≤ bound, Cycles n s t

theorem Cycles.within {n : Nat} {s t : State} (h : Cycles n s t) : Within n s t := ⟨n, le_rfl, h⟩

theorem Within.mono {m n : Nat} {s t : State} (h : Within m s t) (hle : m ≤ n) : Within n s t := by
  obtain ⟨k, hk, hc⟩ := h
  exact ⟨k, hk.trans hle, hc⟩

theorem Within.append {m n : Nat} {s t u : State} (h : Within m s t) (g : Within n t u) : Within (m + n) s u := by
  obtain ⟨j, hj, hst⟩ := h
  obtain ⟨k, hk, htu⟩ := g
  exact ⟨j + k, Nat.add_le_add hj hk, hst.append htu⟩

end Sys2Proof.Machine
end

section
/-! SUPPORT. RENDER cycle by cycle: each payload word taken, each slot sent, the rest dropped after a failing lookup, and the
loop under each `POINT_VARIANT` (41_render R83 to R92). -/

namespace Sys2Proof.Machine

/-! ### A RENDER between two slots -/

/-- A RENDER with its lines driven, between two slots: `ws` is what it has still to take of its frame, and the host presents
`rest` after it. -/
structure Streams (ws rest : List Word) (s : State) : Prop where
  busy : s.busy = true
  driven : s.driven = true
  cmd : ∃ len, s.cmd = some (.render len)
  short : ws.length ≤ 255
  remain : s.remain = BitVec.ofNat 8 ws.length
  words : s.words = ws ++ rest

section
variable {s : State} {w : Word} {ws rest : List Word}

theorem Streams.remain_ne_zero (h : Streams (w :: ws) rest s) : s.remain ≠ 0 := by
  rw [h.remain]
  exact (ofNat_succ_sub_one ws.length h.short).1

theorem Streams.remain_eq_zero (h : Streams [] rest s) : s.remain = 0 := h.remain

theorem Streams.remain_eq_zero_iff (h : Streams ws rest s) : s.remain = 0 ↔ ws = [] := by
  cases ws with
  | nil => exact iff_of_true h.remain_eq_zero rfl
  | cons w ws => exact iff_of_false h.remain_ne_zero (List.cons_ne_nil w ws)

/-- The words after the frame are all that is left once it is taken. -/
theorem Streams.words_eq_rest (h : Streams [] rest s) : { s with words := rest } = s := by
  rw [← show s.words = rest from h.words]

/-- One word fewer, whatever it does to the phase, the look-ahead register and the pending point. -/
theorem Streams.take (h : Streams (w :: ws) rest s) (phase : Phase) (hold : Byte) (holdv pendp : Bool) :
    Streams ws rest { s with
      words := ws ++ rest, remain := s.remain - 1, phase := phase, hold := hold, holdv := holdv, pendp := pendp } := by
  refine ⟨h.busy, h.driven, h.cmd, Nat.le_of_succ_le h.short, ?_, rfl⟩
  change s.remain - 1 = _
  rw [h.remain]
  exact (ofNat_succ_sub_one ws.length h.short).2

/-- While a word is left to take, a cycle in LOOKUP takes it (R72). -/
theorem Streams.cycle_transfer (h : Streams (w :: ws) rest s) (hp : s.phase = .lookup) :
    Cycles 1 s (({ s with words := ws ++ rest } : State).transfer w) := by
  obtain ⟨_, hc⟩ := h.cmd
  have ha : s.awaiting = true := awaiting_intro h.busy hp h.remain_ne_zero hc
  refine .one (fun x => ?_) h.driven (by simp [hp])
  have taken := clockCycle_of_awaiting (s := { s with inputs := x }) ha h.words
  have moved := exec_charw_of_awaiting (s := { s with inputs := x, words := ws ++ rest }) ha w
  exact (taken.trans moved).trans (congrArg _ (transfer_withInputs { s with words := ws ++ rest } w x))

/-! ### The rest of a frame that is dropped (R88) -/

/-- The payload after a failed lookup is taken word by word, and the last one ends the RENDER with LOOKUP_ERROR. -/
theorem Streams.drops (h : Streams ws rest s) (hp : s.phase = .lookup) (hdis : s.discard = true) (hne : ws ≠ []) :
    Cycles ws.length s (({ s with words := rest } : State).endRender .lookupError) := by
  induction ws generalizing s with
  | nil => exact absurd rfl hne
  | cons w ws ih =>
    have hone : s.remain = 1 ↔ ws = [] := by
      rw [← (h.take s.phase s.hold s.holdv s.pendp).remain_eq_zero_iff]
      exact (sub_one_eq_zero s.remain).symm
    have first := h.cycle_transfer hp
    rw [transfer_of_discard (by exact hdis)] at first
    rw [List.length_cons, Nat.add_comm]
    refine first.append ?_
    by_cases hws : ws = []
    · subst hws
      rw [if_pos (by exact hone.2 rfl), State.failure, if_pos (by exact h.driven)]
      exact .none _
    · rw [if_neg (by exact mt hone.1 hws)]
      exact ih (h.take s.phase s.hold s.holdv s.pendp) hp hdis hws

end

/-! ### One slot -/

/-- The state of a RENDER after a slot has been sent. -/
def State.afterSlot (v : Byte) (s : State) : State :=
  { s.shiftOut v with slot := s.slot + 1, bit := 7, phase := .clkLow, pendp := false }

@[simp] theorem afterSlot_holdv (v : Byte) (s : State) : (s.afterSlot v).holdv = s.holdv := rfl

section
variable {s : State} {ws rest : List Word}

theorem Streams.afterSlot (h : Streams ws rest s) (v : Byte) : Streams ws rest (s.afterSlot v) := by
  unfold State.afterSlot
  rw [shiftOut_eq s v h.driven]
  exact ⟨h.busy, h.driven, h.cmd, h.short, h.remain, h.words⟩

/-- A slot whose lookup has succeeded takes 24 cycles (R77). -/
theorem Streams.cycles_slot (h : Streams ws rest s) {c v : Byte} {p : Bool} (hv : resolveSlot s.cfg c p = some v) :
    Cycles 24 (s.beginSlot c p) (s.afterSlot v).nextSlot := by
  obtain ⟨len, hc⟩ := h.cmd
  rw [beginSlot_of_some s c p v hv]
  exact Cycles.render_slot { s with buf := v, bit := 7, phase := .clkLow, pendp := false } len h.busy h.driven rfl rfl hc

/-- One slot of the loop of RENDER, cycle by cycle: its lookup fails and the rest of the payload is dropped, or it is sent
and the loop goes on. -/
theorem Streams.slot (h : Streams ws rest s) (hp : s.phase = .lookup) (c : Byte) (p : Bool) {slots : List Slot} {bound : Nat}
    (hbound : ws.length ≤ bound)
    (loop : ∀ v, Within bound (s.afterSlot v).nextSlot (({ s.afterSlot v with words := rest } : State).sendSlots slots)) :
    Within (24 + bound) (s.beginSlot c p) (({ s with words := rest } : State).sendSlots ((c, p) :: slots)) := by
  cases hv : resolveSlot s.cfg c p with
  | some v =>
    have sent : ({ s with words := rest } : State).sendSlots ((c, p) :: slots)
        = ({ s.afterSlot v with words := rest } : State).sendSlots slots := by
      simp only [State.sendSlots, hv]
      rw [State.afterSlot, shiftOut_eq s v h.driven, shiftOut_eq _ v (by exact h.driven)]
      exact (sendSlots_withTransients slots _ _ _ _ _ _ _ _ _ _ _).symm
    rw [sent]
    exact (h.cycles_slot hv).within.append (loop v)
  | none =>
    have failed : ({ s with words := rest } : State).sendSlots ((c, p) :: slots)
        = ({ s with words := rest } : State).endRender .lookupError := by
      simp only [State.sendSlots, hv]
    rw [failed]
    refine Within.mono (m := ws.length) ?_ (by omega)
    by_cases hws : ws = []
    · subst hws
      rw [h.words_eq_rest, State.beginSlot, hv]
      simp only [if_pos h.remain_eq_zero, State.failure, if_pos h.driven]
      exact (Cycles.none _).within
    · simp only [State.beginSlot, hv, if_neg (mt h.remain_eq_zero_iff.1 hws)]
      have dropping : Streams ws rest { s with discard := true } := ⟨h.busy, h.driven, h.cmd, h.short, h.remain, h.words⟩
      exact (dropping.drops hp rfl hws).within

/-! ### The loop -/

/-- With nothing left there is the latch pulse. -/
theorem Streams.latches (h : Streams [] rest s) (hh : s.holdv = false) :
    Within 2 s.nextSlot (({ s with words := rest } : State).sendSlots []) := by
  rw [h.words_eq_rest, nextSlot_eq_latch s h.remain_eq_zero hh]
  exact (Cycles.latch_pulse { s with phase := .latchHi } h.busy h.driven rfl).within

/-- With a word left its transfer comes next. -/
theorem Streams.transfers {w : Word} (h : Streams (w :: ws) rest s) {t : State} {bound : Nat}
    (after : Within bound (({ s with words := ws ++ rest, phase := .lookup } : State).transfer w) t) :
    Within (1 + bound) s.nextSlot t := by
  rw [nextSlot_eq_lookup s (.inl h.remain_ne_zero)]
  have looking : Streams (w :: ws) rest { s with phase := .lookup } :=
    ⟨h.busy, h.driven, h.cmd, h.short, h.remain, h.words⟩
  exact (looking.cycle_transfer rfl).within.append after

/-- RENDER's loop ends alike whatever the registers of the sequencer hold. -/
theorem Within.of_withTransients {bound : Nat} {t : State} {slots : List Slot}
    {busy cmd slot bit phase remain hold holdv pendp discard}
    (h : Within bound s
      ((t.withTransients busy cmd slot bit phase remain hold holdv pendp discard).sendSlots slots)) :
    Within bound s (t.sendSlots slots) := by
  rwa [sendSlots_withTransients] at h

/-- R84: every character is a slot. -/
theorem Streams.finishes_standalone (h : Streams ws rest s) (hdis : s.discard = false) (hh : s.holdv = false)
    (hv : s.cfg.pointVariant = .aStandalone) :
    Within (25 * ws.length + 2) s.nextSlot
      (({ s with words := rest } : State).sendSlots (slotsA (ws.map payloadChar))) := by
  induction ws generalizing s with
  | nil => exact h.latches hh
  | cons w ws ih =>
    have taken := h.take .lookup s.hold s.holdv s.pendp
    refine (h.transfers (bound := 24 + (25 * ws.length + 2)) ?_).mono (by rw [List.length_cons]; omega)
    rw [transfer_standalone (by exact hdis) w (by exact hv)]
    refine .of_withTransients (taken.slot rfl _ _ (by omega) fun v => ?_)
    exact ih (taken.afterSlot v) hdis hh hv

/-- A point under `B_FOLD_NEXT` pends; the slot it marks is still to come (R86). -/
theorem transfer_foldNext_pends {s : State} (hdis : s.discard = false) (w : Word)
    (hv : s.cfg.pointVariant = .bFoldNext) (hc : payloadChar w = pointChar) :
    s.transfer w = ({ s with remain := s.remain - 1, pendp := true } : State).nextSlot := by
  simp [State.transfer, State.payloadArrives, hdis, hv, hc]

/-- R86: a '.' pends, any other character is a slot. -/
theorem Streams.finishes_foldNext (h : Streams ws rest s) (hdis : s.discard = false) (hh : s.holdv = false)
    (hv : s.cfg.pointVariant = .bFoldNext) :
    Within (25 * ws.length + 2) s.nextSlot
      (({ s with words := rest } : State).sendSlots (slotsNextFrom s.pendp (ws.map payloadChar))) := by
  induction ws generalizing s with
  | nil => exact h.latches hh
  | cons w ws ih =>
    rw [List.map_cons, slotsNextFrom]
    split
    next hc =>
      refine (h.transfers (bound := 25 * ws.length + 2) ?_).mono (by rw [List.length_cons]; omega)
      rw [transfer_foldNext_pends (by exact hdis) w (by exact hv) hc]
      exact .of_withTransients (ih (h.take .lookup s.hold s.holdv true) hdis hh hv)
    next hc =>
      have taken := h.take .lookup s.hold s.holdv s.pendp
      refine (h.transfers (bound := 24 + (25 * ws.length + 2)) ?_).mono (by rw [List.length_cons]; omega)
      rw [transfer_foldNext (by exact hdis) w (by exact hv) hc]
      refine .of_withTransients (taken.slot rfl _ _ (by omega) fun v => ?_)
      exact ih (taken.afterSlot v) hdis hh hv

/-- The character that is held for the next one to show whether a '.' follows (R85). -/
def State.heldChar (s : State) : List Byte := if s.holdv then [s.hold] else []

theorem heldChar_of_held (hh : s.holdv = true) : s.heldChar = [s.hold] := if_pos hh

theorem heldChar_of_empty (hh : s.holdv = false) : s.heldChar = [] := if_neg (by simp [hh])

/-- At the end of the frame the held character is the last slot, and its lookup has a cycle of its own (R92). -/
theorem Streams.finishes_held (h : Streams [] rest s) (hh : s.holdv = true) :
    Within 27 s.nextSlot (({ s with words := rest } : State).sendSlots [(s.hold, false)]) := by
  rw [nextSlot_eq_lookup s (.inr hh)]
  obtain ⟨_, hc⟩ := h.cmd
  have emptied : Streams [] rest { s with phase := .lookup, holdv := false } :=
    ⟨h.busy, h.driven, h.cmd, h.short, h.remain, h.words⟩
  have looked : Cycles 1 { s with phase := .lookup }
      (({ s with phase := .lookup, holdv := false } : State).beginSlot s.hold false) := by
    refine .one (.of_microStep h.busy (by simp [State.awaiting, h.remain_eq_zero]) fun x => ?_) h.driven (by simp)
    refine (microStep_of_held (s := { s with phase := .lookup, inputs := x }) rfl hc hh).trans (congrArg _ ?_)
    exact beginSlot_withInputs { s with phase := .lookup, holdv := false } s.hold false x
  refine looked.within.append (m := 1) (n := 24 + 2) (.of_withTransients (emptied.slot rfl _ _ (by simp) fun v => ?_))
  exact (emptied.afterSlot v).latches rfl

/-- R85: a character is held until the next one shows whether it takes the point. -/
theorem Streams.finishes_foldPrev (h : Streams ws rest s) (hdis : s.discard = false)
    (hv : s.cfg.pointVariant = .bFoldPrev) :
    Within (25 * ws.length + 24 * s.heldChar.length + 3) s.nextSlot
      (({ s with words := rest } : State).sendSlots (slotsPrev (s.heldChar ++ ws.map payloadChar))) := by
  induction ws generalizing s with
  | nil =>
    cases hh : s.holdv with
    | false => rw [heldChar_of_empty hh]; exact (h.latches hh).mono (by simp)
    | true => rw [heldChar_of_held hh]; exact h.finishes_held hh
  | cons w ws ih =>
    rw [List.map_cons]
    cases hh : s.holdv with
    | false =>
      rw [heldChar_of_empty hh]
      refine (h.transfers (bound := 25 * ws.length + 24 + 3) ?_).mono (by simp; omega)
      rw [transfer_foldPrev_first (by exact hdis) w rfl (by exact hv) (by exact hh)]
      have held := ih (h.take .lookup (payloadChar w) true s.pendp) hdis hv
      rw [nextSlot_eq_lookup _ (.inr rfl)] at held
      exact .of_withTransients held
    | true =>
      rw [heldChar_of_held hh, List.singleton_append, slotsPrev]
      refine (h.transfers (bound := 24 + (25 * ws.length + 24 + 3)) ?_).mono (by simp; omega)
      split
      next hc =>
        have taken := h.take .lookup s.hold false s.pendp
        rw [transfer_foldPrev_point (by exact hdis) w (by exact hv) (by exact hh) hc]
        refine .of_withTransients (taken.slot rfl _ _ (by omega) fun v => ?_)
        exact (ih (taken.afterSlot v) hdis hv).mono (by simp [State.heldChar])
      next hc =>
        have taken := h.take .lookup (payloadChar w) s.holdv s.pendp
        rw [transfer_foldPrev_char (by exact hdis) w (by exact hv) (by exact hh) hc]
        refine .of_withTransients (taken.slot rfl _ _ (by omega) fun v => ?_)
        have held := ih (taken.afterSlot v) hdis hv
        rw [heldChar_of_held (by exact hh)] at held
        exact held

end

end Sys2Proof.Machine
end

section
/-! SUPPORT. Every command cycle by cycle, from its acceptance to the state its one transition gives (92_eei_decisions D1). -/

namespace Sys2Proof.Machine

/-! ### The acceptance -/

theorem boundary_phase_ne_done (s : State) : s.boundary.phase ≠ .done := by
  simpa [State.donePort] using boundary_donePort s

/-- With the lines driven, the boundary done twice is done once, so a step may begin after it. -/
theorem step_boundary {s : State} (hd : s.driven = true) : step s.boundary = step s := by
  rw [step, step, State.transition, State.transition,
    boundary_eq_self s.boundary (s.boundary_driven.trans hd) (boundary_phase_ne_done s)]

/-- Cycles from the state that the boundary leaves, as steps of the machine. -/
theorem Cycles.run_of_boundary {n : Nat} {s t : State} (hd : s.driven = true) (h : Cycles (n + 1) s.boundary t) :
    core.run (n + 1) { s with inputs := List.replicate (n + 1) (.clock true) } = .next { t with inputs := [] } := by
  rw [← h.run, ← State.boundary_with_inputs]
  simp only [Host.Core.run, core, step_boundary (s := { s with inputs := List.replicate (n + 1) (.clock true) }) hd]

/-- An idle block takes a command word in one cycle (R72, R74). -/
theorem cycle_accept {s : State} {h : Header} {ws : List Word} (hb : s.busy = false) (hw : s.words = encodeHeader h :: ws) :
    Cycle s (({ s with words := ws } : State).accept h) := by
  intro x
  have taken : ({ s with inputs := x } : State).clockCycle true
      = .next (({ s with inputs := x, words := ws } : State).accept h) := by
    simp [State.clockCycle, State.awaiting, hb, hw, State.acceptWord, decodeHeader_encodeHeader]
  rw [taken]
  exact congrArg _ (accept_withInputs { s with words := ws } h x)

/-- A command just accepted, at its first position, with `len` payload words to take (R20, R27). -/
def State.begun (h : Header) (phase : Phase) (len : Byte) (s : State) : State :=
  s.withTransients true (some h) 0 7 phase len s.hold false false false

/-! ### Each command after its acceptance -/

section
variable {s : State} (hd : s.driven = true)
include hd

/-- SEND_DIGIT from its LOOKUP on: the lookup, and the slot if it has a value (R77, R80). -/
theorem sendDigit_cycles {p : Bool} {c : Byte} (hb : s.busy = true) (hp : s.phase = .lookup)
    (hc : s.cmd = some (.sendDigit p c)) : Within 25 s (s.sendDigit p c) := by
  have ha : s.awaiting = false := by simp [State.awaiting, hc]
  have one : ∀ t, (∀ x, ({ s with inputs := x } : State).lookupStep = .next { t with inputs := x }) → Cycles 1 s t :=
    fun t looks => .one (.of_microStep hb ha fun x => by simpa only [State.microStep, hp] using looks x) hd (by simp [hp])
  cases hv : resolveSlot s.cfg c p with
  | none =>
    have failed : s.sendDigit p c = s.complete .lookupError := by simp [State.sendDigit, hd, hv]
    rw [failed]
    exact (one _ fun x => by simp only [State.lookupStep, hc, hv]; rfl).within.mono (by decide)
  | some v =>
    have begins := one { s with buf := v, bit := 7, phase := .clkLow } fun x => by simp only [State.lookupStep, hc, hv]
    have sent := Cycles.sendDigit_slot { s with buf := v, bit := 7, phase := .clkLow } p c hb hd rfl rfl hc
    rw [sendDigit_of_resolved p hd hv]
    exact (begins.append sent).within

/-- SEND_DIGIT does not look at the registers of the sequencer; it leaves `HOLD` as it is. -/
theorem sendDigit_withTransients (p : Bool) (c : Byte) (busy cmd slot bit phase remain holdv pendp discard) :
    (s.withTransients busy cmd slot bit phase remain s.hold holdv pendp discard).sendDigit p c = s.sendDigit p c := by
  cases hv : resolveSlot s.cfg c p with
  | none =>
    have hc : charIndex c = none := (resolveSlot_eq_none s.cfg c p).1 hv
    rw [sendDigit_of_unsupported p hd hc, sendDigit_of_unsupported p (by exact hd) hc]
    rfl
  | some v =>
    rw [sendDigit_of_resolved p hd hv, sendDigit_of_resolved p (by exact hd) (by exact hv), shiftOut_withTransients]
    rfl

/-- SEND_DIGIT after its acceptance. -/
theorem sendDigit_within (p : Bool) (c : Byte) : Within 25 (s.accept (.sendDigit p c)) (s.sendDigit p c) := by
  have accepted : s.accept (.sendDigit p c) = s.begun (.sendDigit p c) .lookup 0 := if_pos hd
  have same : (s.begun (.sendDigit p c) .lookup 0).sendDigit p c = s.sendDigit p c := sendDigit_withTransients hd ..
  rw [accepted, ← same]
  exact sendDigit_cycles (by exact hd) rfl rfl rfl

/-- An output-control command after its acceptance: its one write (R156). -/
theorem outputControl_within {h : Header} {t : State} (accepted : s.accept h = s.begun h .oeWrite 0)
    (writes : ∀ x, ({ s.begun h .oeWrite 0 with inputs := x } : State).oeStep = .next { t with inputs := x }) :
    Within 1 (s.accept h) t := by
  have cycle : Cycle (s.begun h .oeWrite 0) t := .of_microStep rfl rfl writes
  rw [accepted]
  exact (Cycles.one cycle hd (show Phase.oeWrite ≠ .done by decide)).within

theorem enable_within : Within 1 (s.accept .enable) (s.setVisible true) := by
  rw [State.setVisible, if_pos hd]
  exact outputControl_within hd (if_pos hd) fun _ => rfl

theorem disable_within : Within 1 (s.accept .disable) (s.setVisible false) := by
  rw [State.setVisible, if_pos hd]
  exact outputControl_within hd (if_pos hd) fun _ => rfl

theorem shutdown_within : Within 1 (s.accept .shutdown) s.shutdown := by
  rw [State.shutdown, State.release, if_pos hd]
  refine outputControl_within hd (if_pos hd) fun x => ?_
  have released : ({ s.begun .shutdown .oeWrite 0 with inputs := x } : State).release
      = { ({ s.begun .shutdown .oeWrite 0 with inputs := x } : State).drive .vis false with driven := false } := if_pos hd
  exact congrArg (fun t => Host.Outcome.next (State.complete .ok t)) released

/-- The acceptance of a RENDER leads to its first slot, or to the latch pulse if there is none (R20). -/
theorem accept_render (len : Byte) : s.accept (.render len) = (s.begun (.render len) s.phase len).nextSlot := by
  by_cases hlen : len = 0
  · rw [nextSlot_eq_latch _ hlen rfl]
    simp [State.accept, hlen, hd, State.begun, State.withTransients]
  · rw [nextSlot_eq_lookup _ (.inl hlen)]
    have hlen' : ¬ len = 0#8 := hlen
    simp [State.accept, hlen', hd, State.begun, State.withTransients]

/-- RENDER after its acceptance (R83, R92). -/
theorem render_within {frame rest : List Word} (hlen : frame.length ≤ 255) (hw : s.words = frame ++ rest) :
    Within ((Instr.render frame).cycleBound s.cfg.pointVariant - 1) (s.accept (.render (BitVec.ofNat 8 frame.length)))
      (({ s with words := rest } : State).render frame) := by
  have loop : ({ s with words := rest } : State).render frame
      = ({ s with words := rest } : State).sendSlots (slotsOf s.cfg.pointVariant (frame.map payloadChar)) := if_pos hd
  rw [loop, accept_render hd]
  have streams : Streams frame rest
      (s.begun (.render (BitVec.ofNat 8 frame.length)) s.phase (BitVec.ofNat 8 frame.length)) :=
    ⟨rfl, hd, ⟨_, rfl⟩, hlen, rfl, hw⟩
  cases frame with
  | nil =>
    have noSlot : slotsOf s.cfg.pointVariant ([].map payloadChar) = [] := by cases s.cfg.pointVariant <;> rfl
    rw [noSlot]
    refine .of_withTransients ((streams.latches rfl).mono ?_)
    cases s.cfg.pointVariant <;> decide
  | cons w ws =>
    cases hv : s.cfg.pointVariant with
    | aStandalone =>
      exact .of_withTransients ((streams.finishes_standalone rfl rfl hv).mono
        (by simp [Instr.cycleBound, Instr.microStepBound]; omega))
    | bFoldPrev =>
      have finishes := streams.finishes_foldPrev rfl hv
      rw [heldChar_of_empty rfl] at finishes
      exact .of_withTransients (finishes.mono (by simp [Instr.cycleBound, Instr.microStepBound]; omega))
    | bFoldNext =>
      exact .of_withTransients ((streams.finishes_foldNext rfl rfl hv).mono
        (by simp [Instr.cycleBound, Instr.microStepBound]; omega))

end

theorem microStepBound_le_cycleBound (v : Config.PointVariant) (i : Instr) : i.microStepBound ≤ i.cycleBound v := by
  unfold Instr.cycleBound
  split
  · exact Nat.le_succ _
  · exact le_rfl

theorem microStepBound_pos (i : Instr) : 0 < i.microStepBound := by
  cases i with
  | render frame => exact Nat.add_pos_left (by decide) _
  | sendDigit | enable | disable | shutdown | charw => simp [Instr.microStepBound]

/-! ### The two levels -/

/-- Every command after its acceptance, within its bound less the cycle of the acceptance. -/
theorem perform_within {s : State} {i : Instr} {h : Header} {rest : List Word} (hd : s.driven = true)
    (hi : i.header = some h) (hwf : i.wellFormed = true) (hw : s.words = i.payload ++ rest) :
    Within (i.cycleBound s.cfg.pointVariant - 1) (s.accept h) (({ s with words := rest } : State).perform i) := by
  have alone : i.payload = [] → { s with words := rest } = s := fun hp => by
    rw [← show s.words = rest by rw [hw, hp, List.nil_append]]
  have bound : i.microStepBound - 1 ≤ i.cycleBound s.cfg.pointVariant - 1 :=
    Nat.sub_le_sub_right (microStepBound_le_cycleBound _ i) 1
  cases i with
  | sendDigit p c => cases hi; rw [alone rfl]; exact (sendDigit_within hd p c).mono bound
  | render frame => cases hi; exact render_within hd (of_decide_eq_true hwf) hw
  | enable => cases hi; rw [alone rfl]; exact (enable_within hd).mono bound
  | disable => cases hi; rw [alone rfl]; exact (disable_within hd).mono bound
  | shutdown => cases hi; rw [alone rfl]; exact (shutdown_within hd).mono bound
  | charw => cases hi

/-- Settles O53: the acceptance of the command word, then the cycles of the command. -/
theorem microStepLevelAgreesWithOperationLevel : Obligations.MicroStepLevelAgreesWithOperationLevel := by
  intro s i rest _ hb hd hin hwf hi hw
  obtain ⟨h, hh⟩ := Option.ne_none_iff_exists'.1 hi
  have words : s.boundary.words = encodeHeader h :: (i.payload ++ rest) := by
    rw [State.boundary_words, hw, encode_of_header hh, List.cons_append]
  obtain ⟨n, hn, cycles⟩ := perform_within (s := { s.boundary with words := i.payload ++ rest }) (rest := rest)
    (s.boundary_driven.trans hd) hh hwf rfl
  have ended : Cycles (n + 1) s.boundary (({ s.boundary with words := rest } : State).perform i) :=
    .more n _ _ _ (cycle_accept (s.boundary_busy.trans hb) words) (s.boundary_driven.trans hd)
      (boundary_phase_ne_done s) cycles
  have hpos : 0 < i.cycleBound s.cfg.pointVariant := (microStepBound_pos i).trans_le (microStepBound_le_cycleBound _ i)
  have hbound : n ≤ i.cycleBound s.cfg.pointVariant - 1 := s.boundary_cfg ▸ hn
  have inputs : (({ s.boundary with words := rest } : State).perform i).inputs = [] :=
    (Frame.perform _ i).inputs.trans (s.boundary_inputs.trans hin)
  refine ⟨n + 1, _, by omega, exec_of_idle (s := { s.boundary with words := rest }) (s.boundary_busy.trans hb) i, ?_⟩
  rw [ended.run_of_boundary hd, ← inputs]

end Sys2Proof.Machine
end

section
/-! SUPPORT. RENDER at the operation level: its loop with every lookup successful or up to the first that fails, and the edges
its events show (41_render R83 to R90). -/

namespace Sys2Proof.Machine

section
variable {s : State}

/-- The loop of RENDER over slots that all have values: they are sent, then comes the latch pulse (R83, R87). -/
theorem sendSlots_of_resolved {slots : List Slot} {vs : List Byte} (hd : s.driven = true)
    (hv : slots.map (fun x => resolveSlot s.cfg x.1 x.2) = vs.map some) :
    s.sendSlots slots = (afterSlots vs s).latchPulse.endRender .ok := by
  simpa [State.sendSlots] using sendSlots_append slots [] vs s hd hv

/-- The loop of RENDER up to the first slot whose lookup fails (R88). -/
theorem sendSlots_of_unsupported {before after : List Slot} {c : Byte} {p : Bool} {vs : List Byte}
    (hd : s.driven = true) (hv : before.map (fun x => resolveSlot s.cfg x.1 x.2) = vs.map some)
    (hc : charIndex c = none) :
    s.sendSlots (before ++ (c, p) :: after) = (afterSlots vs s).endRender .lookupError := by
  have fails : resolveSlot (afterSlots vs s).cfg c p = none := (resolveSlot_eq_none _ c p).2 hc
  rw [sendSlots_append before _ vs s hd hv, State.sendSlots, fails]

theorem exec_render_of_driven (hb : s.busy = false) (hd : s.driven = true) (frame : List Word) :
    exec (.render frame) s = .next (s.sendSlots (slotsOf s.cfg.pointVariant (frame.map payloadChar))) := by
  rw [exec_of_idle hb]
  exact congrArg _ (if_pos hd)

theorem exec_render_of_released (hb : s.busy = false) (hd : s.driven = false) (frame : List Word) :
    exec (.render frame) s = .next (s.complete .resourceError) := by
  rw [exec_of_idle hb]
  exact congrArg _ (if_neg (by simp [hd]))

end

/-- Settles O18: the slots, the latch pulse and the end of a RENDER, each by what it does to the state. -/
theorem renderSendsSlotsThenLatches : Obligations.RenderSendsSlotsThenLatches := by
  intro s frame vs hb hd hv
  rw [exec_render_of_driven hb hd, sendSlots_of_resolved hd hv, latchPulse_eq (afterSlots vs s) hd, endRender_eq_ended]
  rfl

/-- Settles O19. -/
theorem renderStopsAtFirstUnsupported : Obligations.RenderStopsAtFirstUnsupported := by
  intro s frame before after c p vs hb hd hslots hv hc
  rw [exec_render_of_driven hb hd, hslots, sendSlots_of_unsupported hd hv hc, endRender_eq_ended]
  rfl

/-! ### The count law (R90) -/

/-- The latch pulse after the slots adds the one rising edge of LATCH and none of SCK (R58). -/
theorem slots_latchEvents_edges (vs : List Byte) (a : Bool) :
    risingEdges .sck a (vs.flatMap slotEvents ++ latchEvents) = 8 * vs.length
      ∧ risingEdges .latch false (vs.flatMap slotEvents ++ latchEvents) = 1
      ∧ (vs.flatMap slotEvents ++ latchEvents).length = 24 * vs.length + 2 := by
  obtain ⟨hsck, _, _, hlength⟩ := slotEvents_flatMap_edges vs a
  obtain ⟨_, hlatch, hlow, _⟩ := slotEvents_flatMap_edges vs false
  rw [risingEdges_append, risingEdges_append, List.length_append, hsck, hlatch, hlow, hlength]
  exact ⟨rfl, rfl, rfl⟩

theorem length_of_resolved {p : Config.Params} {slots : List Slot} {vs : List Byte}
    (hv : slots.map (fun x => resolveSlot p x.1 x.2) = vs.map some) : vs.length = slots.length := by
  simpa using (congrArg List.length hv).symm

/-- Settles O21: the events of O18 and O19, counted. -/
theorem renderCountLaw : Obligations.RenderCountLaw := by
  intro s frame hb
  refine ⟨fun hd hl hsupported => ?_, fun k hd hsupported hfails => ?_, fun hd => ?_⟩
  · obtain ⟨vs, hv⟩ := exists_slot_values s.cfg _ hsupported
    obtain ⟨hsck, hlatch, hlength⟩ := slots_latchEvents_edges vs s.sck
    have hslots := slotsOf_length_le s.cfg.pointVariant (frame.map payloadChar)
    rw [List.length_map] at hslots
    rw [length_of_resolved hv] at hsck hlength
    refine ⟨_, vs.flatMap slotEvents ++ latchEvents, renderSendsSlotsThenLatches s frame vs hb hd hv, rfl,
      List.append_assoc .., hsck, hl ▸ hlatch, hlength, fun hframe => ?_⟩
    omega
  · obtain ⟨⟨c, p⟩, hk, hc⟩ := hfails
    obtain ⟨hlt, hget⟩ := List.getElem?_eq_some_iff.1 hk
    obtain ⟨vs, hv⟩ := exists_slot_values s.cfg _ hsupported
    have hvs : vs.length = k := by rw [length_of_resolved hv, List.length_take_of_le hlt.le]
    have hsplit := (List.take_append_drop k (slotsOf s.cfg.pointVariant (frame.map payloadChar))).symm
    rw [List.drop_eq_getElem_cons hlt, hget] at hsplit
    obtain ⟨hsck, _, _, hlength⟩ := slotEvents_flatMap_edges vs s.sck
    obtain ⟨_, hlatch, _, _⟩ := slotEvents_flatMap_edges vs s.latch
    rw [hvs] at hsck hlength
    exact ⟨_, _, renderStopsAtFirstUnsupported s frame _ _ c p vs hb hd hsplit hv hc, rfl, rfl, hsck, hlatch,
      hlength⟩
  · exact ⟨_, exec_render_of_released hb hd frame, rfl, rfl⟩

end Sys2Proof.Machine
end

section
/-! SUPPORT. The slots of a frame under each `POINT_VARIANT`: characters, point flags, and the frames with none (41_render R84
to R86, R89). -/

namespace Sys2Proof.Machine

/-! ### Characters other than the point, flagged by a neighbour -/

/-- The characters of a frame other than '.', each flagged exactly if its neighbour in a second list is a '.'. -/
def flaggedBy (neighbours frame : List Byte) : List Slot :=
  ((frame.zip neighbours).filter (fun x => x.1 != pointChar)).map (fun x => (x.1, x.2 == pointChar))

section
variable {c n : Byte} {ns f : List Byte}

theorem flaggedBy_cons_point : flaggedBy (n :: ns) (pointChar :: f) = flaggedBy ns f := rfl

theorem flaggedBy_cons_of_ne (hc : c ≠ pointChar) :
    flaggedBy (n :: ns) (c :: f) = (c, n == pointChar) :: flaggedBy ns f := by
  simp [flaggedBy, hc]

/-- With a neighbour for each character, no character is lost. -/
theorem map_fst_flaggedBy (h : f.length ≤ ns.length) :
    (flaggedBy ns f).map Prod.fst = f.filter (fun c => c != pointChar) := by
  conv_rhs => rw [← List.map_fst_zip h, List.filter_map]
  rw [flaggedBy, List.map_map]
  rfl

end

/-! ### `B_FOLD_NEXT` (R86) -/

/-- The pending flag is whether the character before is a '.'. -/
theorem slotsNextFrom_eq_flaggedBy (before : Byte) (f : List Byte) :
    slotsNextFrom (before == pointChar) f = flaggedBy (before :: f) f := by
  induction f generalizing before with
  | nil => rfl
  | cons c f ih =>
    by_cases hc : c = pointChar
    · subst hc
      rw [slotsNextFrom, if_pos rfl, flaggedBy_cons_point]
      exact ih pointChar
    · have clears : (c == pointChar) = false := by simpa using hc
      rw [slotsNextFrom, if_neg hc, flaggedBy_cons_of_ne hc, ← ih c, clears]

theorem slotsNext_eq_flaggedBy (f : List Byte) : slotsNext f = flaggedBy (0x00 :: f) f :=
  slotsNextFrom_eq_flaggedBy 0x00 f

theorem map_fst_slotsNext (f : List Byte) : (slotsNext f).map Prod.fst = f.filter (fun c => c != pointChar) := by
  rw [slotsNext_eq_flaggedBy, map_fst_flaggedBy (by simp)]

/-! ### `B_FOLD_PREV` (R85) -/

theorem slotsPrev_point (c : Byte) (f : List Byte) : slotsPrev (c :: pointChar :: f) = (c, true) :: slotsPrev f := by
  rw [slotsPrev, if_pos rfl]

theorem slotsPrev_of_ne {d : Byte} (hd : d ≠ pointChar) (c : Byte) (f : List Byte) :
    slotsPrev (c :: d :: f) = (c, false) :: slotsPrev (d :: f) := by
  rw [slotsPrev, if_neg hd]

/-- Slots written out, a '.' after each that has the flag, are the frame. -/
theorem slotsPrev_writtenOut (f : List Byte) :
    (slotsPrev f).flatMap (fun x => if x.2 then [x.1, pointChar] else [x.1]) = f := by
  induction f using slotsPrev.induct with
  | case1 => rfl
  | case2 c => rfl
  | case3 c f ih => rw [slotsPrev_point, List.flatMap_cons, ih]; rfl
  | case4 c d f hd ih => rw [slotsPrev_of_ne hd, List.flatMap_cons, ih]; rfl

/-- The first slot is of the first character. -/
theorem slotsPrev_head (c : Byte) (f : List Byte) : ∀ y ∈ (slotsPrev (c :: f)).head?, y.1 = c := by
  cases f with
  | nil => simp [slotsPrev]
  | cons d f =>
    by_cases hd : d = pointChar
    · simp [slotsPrev, hd]
    · simp [slotsPrev, hd]

/-- No slot of a '.' follows a slot without the flag: the '.' would have been folded. -/
theorem slotsPrev_folds (f : List Byte) : (slotsPrev f).IsChain (fun x y => x.2 = false → y.1 ≠ pointChar) := by
  induction f using slotsPrev.induct with
  | case1 => exact .nil
  | case2 c => exact .singleton _
  | case3 c f ih =>
    rw [slotsPrev_point]
    exact ih.cons fun _ _ => nofun
  | case4 c d f hd ih =>
    rw [slotsPrev_of_ne hd]
    exact ih.cons fun y hy _ => slotsPrev_head d f y hy ▸ hd

/-! ### `B_FOLD_PREV` when every '.' directly follows a character that is none -/

/-- No '.' is first or directly after another one. -/
def PointsAttached (f : List Byte) : Prop := (pointChar :: f).IsChain (fun x y => y = pointChar → x ≠ pointChar)

/-- The character after each one, 0 after the last. -/
def nextChars (f : List Byte) : List Byte := f.drop 1 ++ [0x00]

/-- With a '.' put before the frame, two in a row would be a '.' that follows none of another kind. -/
theorem pointsAttached_of_split {f : List Byte}
    (h : ∀ a b : List Byte, f = a ++ pointChar :: b → ∃ a' c, a = a' ++ [c] ∧ c ≠ pointChar) : PointsAttached f := by
  refine (List.isChain_isInfix (pointChar :: f)).imp ?_
  rintro x _ ⟨a, b, e⟩ rfl rfl
  cases a with
  | nil =>
    obtain ⟨a', c, ha, _⟩ := h [] b (List.cons.inj e).2.symm
    simp at ha
  | cons z a =>
    obtain ⟨a', c, ha, hc⟩ := h (a ++ [pointChar]) b (by simpa using (List.cons.inj e).2.symm)
    exact hc (List.append_singleton_inj.1 ha).2.symm

theorem length_le_length_nextChars (f : List Byte) : f.length ≤ (nextChars f).length := by
  simp [nextChars]; omega

theorem slotsPrev_eq_flaggedBy {f : List Byte} (h : PointsAttached f) : slotsPrev f = flaggedBy (nextChars f) f := by
  induction f using slotsPrev.induct with
  | case1 => rfl
  | case2 c =>
    obtain ⟨hc, _⟩ := List.isChain_cons_cons.1 h
    exact (flaggedBy_cons_of_ne (n := 0x00) (ns := []) (f := []) fun e => hc e rfl).symm
  | case3 c f ih =>
    obtain ⟨hc, htail⟩ := List.isChain_cons_cons.1 h
    obtain ⟨_, hf⟩ := List.isChain_cons_cons.1 htail
    have folds : flaggedBy (nextChars (c :: pointChar :: f)) (c :: pointChar :: f)
        = (c, true) :: flaggedBy (nextChars (pointChar :: f)) (pointChar :: f) :=
      flaggedBy_cons_of_ne fun e => hc e rfl
    have drops : flaggedBy (nextChars (pointChar :: f)) (pointChar :: f) = flaggedBy (nextChars f) f := by
      cases f <;> rfl
    rw [slotsPrev_point, folds, drops, ih hf]
  | case4 c d f hd ih =>
    obtain ⟨hc, htail⟩ := List.isChain_cons_cons.1 h
    have hf : PointsAttached (d :: f) := htail.tail.cons_cons fun e => absurd e hd
    have plain : flaggedBy (nextChars (c :: d :: f)) (c :: d :: f)
        = (c, d == pointChar) :: flaggedBy (nextChars (d :: f)) (d :: f) :=
      flaggedBy_cons_of_ne fun e => hc e rfl
    have unflagged : (d == pointChar) = false := by simpa using hd
    rw [slotsPrev_of_ne hd, plain, unflagged, ih hf]

/-- Settles O22: both folding variants flag a character by a neighbour, `B_FOLD_PREV` where no '.' stands for itself. -/
theorem slotCountsOfTheVariants : Obligations.SlotCountsOfTheVariants := by
  intro frame
  refine ⟨rfl, map_fst_slotsNext frame, slotsNext_eq_flaggedBy frame, slotsPrev_writtenOut frame, ?_, fun h => ?_⟩
  · intro before after c y e
    obtain ⟨_, follows, _⟩ := List.isChain_append_cons_cons.1 (e ▸ slotsPrev_folds frame)
    exact follows rfl
  · have flags := slotsPrev_eq_flaggedBy (pointsAttached_of_split h)
    exact ⟨flags ▸ map_fst_flaggedBy (length_le_length_nextChars frame), flags⟩

/-- Settles O23, by evaluating the slot functions. -/
theorem foldingCornerCases : Obligations.FoldingCornerCases :=
  ⟨rfl, rfl, rfl, rfl, rfl, rfl, rfl, rfl, rfl, rfl⟩

/-! ### Frames with no slot (R89) -/

theorem slotsPrev_eq_nil_iff (f : List Byte) : slotsPrev f = [] ↔ f = [] := by
  refine ⟨fun h => ?_, by rintro rfl; rfl⟩
  rw [← slotsPrev_writtenOut f, h, List.flatMap_nil]

theorem slotsNext_eq_nil_iff (f : List Byte) : slotsNext f = [] ↔ ∀ c ∈ f, c = pointChar := by
  rw [← List.map_eq_nil_iff (f := Prod.fst), map_fst_slotsNext, List.filter_eq_nil_iff]
  simp

theorem slotsOf_eq_nil_iff (v : Config.PointVariant) (f : List Byte) :
    slotsOf v f = [] ↔ f = [] ∨ (v = .bFoldNext ∧ ∀ c ∈ f, c = pointChar) := by
  cases v with
  | aStandalone => simp [slotsOf, slotsA]
  | bFoldPrev => simp [slotsOf, slotsPrev_eq_nil_iff]
  | bFoldNext =>
    have empty : f = [] → ∀ c ∈ f, c = pointChar := by rintro rfl; exact List.forall_mem_nil _
    simpa [slotsOf, slotsNext_eq_nil_iff] using empty

/-- Settles O20: with no slot the loop is the latch pulse alone. -/
theorem emptyFrameOnlyLatches : Obligations.EmptyFrameOnlyLatches := by
  refine ⟨fun s frame hb hcmd hclear hd hl hframe => ⟨0, ?_⟩, slotsOf_eq_nil_iff⟩
  have noSlot : slotsOf s.cfg.pointVariant (frame.map payloadChar) = [] :=
    (slotsOf_eq_nil_iff _ _).2 (by simpa using hframe)
  have latched : s.latchPulse = { s with events := s.events ++ latchEvents, store := s.shift } := by
    rw [latchPulse_eq s hd, if_neg (by simp [hl]), ← hl]
  rw [exec_render_of_driven hb hd, noSlot, State.sendSlots, latched, endRender_eq_ended]
  exact congrArg _ (ended_of_clear _ _ hb hcmd hclear)

end Sys2Proof.Machine
end

section
/-! SUPPORT. ENABLE, DISABLE and SHUTDOWN by their test of the lines, and every command with the lines released (42_output-control
R94 to R99). -/

namespace Sys2Proof.Machine

/-! ### With the lines driven -/

section
variable {s : State} (hd : s.driven = true)
include hd

theorem setVisible_of_driven (v : Bool) :
    s.setVisible v = State.ended 0 { s with vis := v, events := s.events ++ [⟨.vis, v⟩] } := if_pos hd

/-- The blanking comes before the release, so its event is recorded (R96). -/
theorem shutdown_of_driven :
    s.shutdown = State.ended 0 { s with vis := false, driven := false, events := s.events ++ [⟨.vis, false⟩] } :=
  congrArg (State.complete .ok) (if_pos hd)

end

/-- Settles O24. -/
theorem enableAndDisableWriteVis : Obligations.EnableAndDisableWriteVis := by
  intro s hb hd
  rw [exec_of_idle hb, exec_of_idle hb]
  exact ⟨congrArg _ (setVisible_of_driven hd true), congrArg _ (setVisible_of_driven hd false)⟩

/-- Settles O25. -/
theorem shutdownBlanksThenReleases : Obligations.ShutdownBlanksThenReleases := by
  intro s hb hd
  rw [exec_of_idle hb]
  exact congrArg _ (shutdown_of_driven hd)

/-! ### With the lines released -/

section
variable {s : State} {i : Instr}

/-- Released lines end every command at its first test: SHUTDOWN with success, the others with a resource error (R97, R99). -/
theorem perform_of_released (hd : s.driven = false) (hi : i.header ≠ none) :
    s.perform i = s.ended (if i = .shutdown then 0 else 2) := by
  have failsTest : ¬ s.driven = true := by simp [hd]
  cases i with
  | sendDigit p c => exact sendDigit_of_released p hd
  | render frame => exact if_neg failsTest
  | enable | disable => exact if_neg failsTest
  | shutdown => exact congrArg (State.complete .ok) (if_neg failsTest)
  | charw => exact absurd rfl hi

theorem exec_of_released (hb : s.busy = false) (hd : s.driven = false) (hi : i.header ≠ none) :
    exec i s = .next (s.ended (if i = .shutdown then 0 else 2)) := by
  rw [exec_of_idle hb, perform_of_released hd hi]

end

/-- Settles O26. -/
theorem shutdownIsIdempotent : Obligations.ShutdownIsIdempotent := by
  refine fun s hb hcmd hclear hd => ⟨?_, fun i t hi h => ?_⟩
  · rw [exec_of_released hb hd (by simp [Instr.header]), if_pos rfl, ended_of_clear s 0 hb hcmd hclear]
  · rw [exec_of_released hb hd hi] at h
    cases h
    change (if i = .shutdown then 0 else 2 : BitVec 3) = 0 ↔ i = .shutdown
    split <;> simp [*]

/-- Settles O27: a step decodes the RENDER with its whole payload, and `exec` ends it. -/
theorem releasedCommandsReportResourceError : Obligations.ReleasedCommandsReportResourceError := by
  refine ⟨fun s i hb hcmd hclear hd hi hne => ?_, fun s frame rest hb hd hin hlen hw => ?_⟩
  · rw [exec_of_released hb hd hi, if_neg hne, ended_of_clear s 2 hb hcmd hclear]
  · have hdec : decode s.words = .ok (.render frame, rest) :=
      hw ▸ decode_encode (i := .render frame) (by simp [Instr.header]) (decide_eq_true hlen) rest
    have hstep : step s = .next (State.ended 2 { s.boundary with words := rest }) := by
      rw [stepExecutesTheDecodedInstruction.1 s _ rest hin hb hdec,
        exec_of_released (by simpa using hb) (by simpa using hd) (by simp [Instr.header]), if_neg (by simp)]
    exact ⟨_, hstep, rfl, rfl, s.boundary_events⟩

/-! ### Visibility and data -/

/-- Settles O28: the frame of every instruction, and the commands that send data keep VIS. -/
theorem visibilityAndDataAreIndependent : Obligations.VisibilityAndDataAreIndependent := by
  intro s t i h
  obtain ⟨_, _, _, _, _, _, _, _, _, hlatchStore, _, hserial, _, hcharw⟩ := instructionFrames s t i h
  refine ⟨fun hi => ?_, ?_, ?_, fun w hw => (hcharw w hw).2⟩
  · have notRender : ∀ f, i ≠ .render f := by rintro f rfl; simp at hi
    have notSendDigit : ∀ p c, i ≠ .sendDigit p c := by rintro p c rfl; simp at hi
    obtain ⟨hlatch, hstore⟩ := hlatchStore notRender
    obtain ⟨hsck, hdata, hshift⟩ := hserial notRender notSendDigit
    exact ⟨hsck, hdata, hlatch, hshift, hstore⟩
  · rintro p c rfl
    rw [exec_of_not_charw h (by simp)]
    exact (Keeps.sendDigit p c s).vis
  · rintro frame rfl
    rw [exec_of_not_charw h (by simp)]
    exact (Keeps.render frame s).vis

end Sys2Proof.Machine
end

section
/-! SUPPORT. The Stopwatch, the digits and slots of its frames, and the host's loop (45_host-stopwatch R100 to R110). -/

namespace Sys2Proof.Machine

/-! ### The update (R103, R108) -/

section
variable {w : Stopwatch} {now : Rat}

theorem Stopwatch.update_of_regression (h : now < w.startInstant) :
    w.update now = { w with elapsedMinutes := 0, elapsedSeconds := 0 } := if_pos h

theorem Stopwatch.update_of_le (h : w.startInstant ≤ now) :
    w.update now =
      { w with
        elapsedMinutes := w.totalSeconds now / 60
        elapsedSeconds := Fin.ofNat 60 (w.totalSeconds now)
        indicator :=
          if Fin.ofNat 60 (w.totalSeconds now) = w.elapsedSeconds then w.indicator else !w.indicator } :=
  if_neg (not_lt.2 h)

@[simp] theorem Stopwatch.update_startInstant (w : Stopwatch) (now : Rat) :
    (w.update now).startInstant = w.startInstant := by
  unfold Stopwatch.update; split <;> rfl

/-- From the start instant on the difference is not negative, so its floor is a number of seconds. -/
theorem Stopwatch.totalSeconds_eq_floor (h : w.startInstant ≤ now) :
    (w.totalSeconds now : Int) = (now - w.startInstant).floor :=
  Int.toNat_of_nonneg (Int.floor_nonneg.2 (sub_nonneg.2 h))

/-- Minutes and seconds are quotient and remainder of the whole seconds since the start instant. -/
theorem Stopwatch.update_elapsed (h : w.startInstant ≤ now) :
    ((60 * (w.update now).elapsedMinutes + (w.update now).elapsedSeconds.val : Nat) : Int)
      = (now - w.startInstant).floor := by
  rw [Stopwatch.update_of_le h, ← Stopwatch.totalSeconds_eq_floor h]
  exact congrArg _ (Nat.div_add_mod (w.totalSeconds now) 60)

theorem Stopwatch.update_indicator_toggles_iff (h : w.startInstant ≤ now) :
    (w.update now).indicator = !w.indicator ↔ (w.update now).elapsedSeconds ≠ w.elapsedSeconds := by
  rw [Stopwatch.update_of_le h]
  by_cases same : Fin.ofNat 60 (w.totalSeconds now) = w.elapsedSeconds
  · rw [if_pos same]
    exact iff_of_false (Bool.not_ne_self _).symm (not_not.2 same)
  · rw [if_neg same]
    exact iff_of_true rfl same

end

/-- Settles O55. -/
theorem stopwatchUpdate : Obligations.StopwatchUpdate := by
  refine fun w now => ⟨w.update_startInstant now, fun hlt => ?_, fun hle => ?_⟩
  · rw [Stopwatch.update_of_regression hlt]
    exact ⟨rfl, rfl, rfl⟩
  · exact ⟨Stopwatch.update_elapsed hle, Stopwatch.update_indicator_toggles_iff hle⟩

/-! ### The frame (R106, R107, R110) -/

theorem Stopwatch.frame_of_minutes_le {w : Stopwatch} (h : w.elapsedMinutes ≤ 99) :
    w.frame = some ([digitChar (w.elapsedMinutes / 10), digitChar (w.elapsedMinutes % 10)]
      ++ (if w.indicator then [pointChar] else [])
      ++ [digitChar (w.elapsedSeconds.val / 10), digitChar (w.elapsedSeconds.val % 10)]) := if_pos h

theorem Stopwatch.frame_eq_none_iff (w : Stopwatch) : w.frame = none ↔ 100 ≤ w.elapsedMinutes := by
  unfold Stopwatch.frame
  split
  case isTrue hmin => exact iff_of_false nofun (by omega)
  case isFalse hmin => exact iff_of_true rfl (by omega)

theorem Stopwatch.frame_restart (w : Stopwatch) (now : Rat) :
    (w.restart now).frame = some [0x30, 0x30, 0x30, 0x30] := by
  simp [Stopwatch.frame, Stopwatch.restart, digitChar]

/-- Settles O56: a Stopwatch just reset is a literal, and its updates are those of R103. -/
theorem stopwatchResetShowsZeros : Obligations.StopwatchResetShowsZeros :=
  fun w now => ⟨rfl, rfl, w.frame_restart now, fun _ h => Stopwatch.update_elapsed (w := w.restart now) h⟩

/-- Settles O57: quotient and remainder by ten are the two decimal digits. -/
theorem stopwatchFrameDigits : Obligations.StopwatchFrameDigits := by
  refine fun w => ⟨fun h => ?_, w.frame_eq_none_iff.2⟩
  have hsec : w.elapsedSeconds.val < 60 := w.elapsedSeconds.isLt
  have digit : ∀ k ≤ 9, digitChar k = BitVec.ofNat 8 (0x30 + k) := fun k hk => (digitChar_supported k hk).1
  refine ⟨w.elapsedMinutes / 10, w.elapsedMinutes % 10, w.elapsedSeconds.val / 10, w.elapsedSeconds.val % 10,
    by omega, by omega, by omega, by omega, by omega, by omega, ?_⟩
  rw [Stopwatch.frame_of_minutes_le h, digit _ (by omega), digit _ (by omega), digit _ (by omega), digit _ (by omega)]
  rfl

/-- The character of a decimal digit (R106). -/
def IsDigitChar (c : Byte) : Prop := ∃ k ≤ 9, c = digitChar k

theorem IsDigitChar.supported {c : Byte} (h : IsDigitChar c) : charIndex c ≠ none := by
  obtain ⟨k, hk, rfl⟩ := h
  exact (digitChar_supported k hk).2.1

theorem IsDigitChar.ne_point {c : Byte} (h : IsDigitChar c) : c ≠ pointChar := by
  obtain ⟨k, hk, rfl⟩ := h
  exact (digitChar_supported k hk).2.2

/-- A frame is four digits, with a '.' in the middle if the indicator is on. -/
theorem Stopwatch.frame_cases {w : Stopwatch} {f : List Byte} (h : w.frame = some f) :
    ∃ m1 m0 s1 s0, (IsDigitChar m1 ∧ IsDigitChar m0 ∧ IsDigitChar s1 ∧ IsDigitChar s0)
      ∧ f = [m1, m0] ++ (if w.indicator then [pointChar] else []) ++ [s1, s0] := by
  have hmin : w.elapsedMinutes ≤ 99 := by
    by_contra hover
    have hnone := w.frame_eq_none_iff.2 (by omega)
    simp [hnone] at h
  have hsec : w.elapsedSeconds.val < 60 := w.elapsedSeconds.isLt
  rw [Stopwatch.frame_of_minutes_le hmin] at h
  exact ⟨_, _, _, _, ⟨⟨_, by omega, rfl⟩, ⟨_, by omega, rfl⟩, ⟨_, by omega, rfl⟩, _, by omega, rfl⟩,
    (Option.some.inj h).symm⟩

/-- Settles O58: the slots of four digits, and of four digits with a '.' in the middle. -/
theorem stopwatchFrameSlots : Obligations.StopwatchFrameSlots := by
  intro w f h
  obtain ⟨m1, m0, s1, s0, ⟨hm1, hm0, hs1, hs0⟩, rfl⟩ := Stopwatch.frame_cases h
  refine ⟨?_, fun off => ?_, fun on => ?_⟩
  · have point : charIndex pointChar ≠ none := by decide
    cases w.indicator <;> simp [hm1.supported, hm0.supported, hs1.supported, hs0.supported, point]
  · rw [off]
    refine ⟨rfl, fun v => ?_⟩
    cases v with
    | aStandalone => rfl
    | bFoldPrev => simp [slotsOf, slotsPrev, hm0.ne_point, hs1.ne_point, hs0.ne_point]
    | bFoldNext =>
      simp [slotsOf, slotsNext, slotsNextFrom, hm1.ne_point, hm0.ne_point, hs1.ne_point, hs0.ne_point]
  · rw [on]
    refine ⟨m1, m0, s1, s0, rfl, rfl, ?_, ?_⟩
    · simp [slotsOf, slotsPrev, hm0.ne_point, hs0.ne_point]
    · simp [slotsOf, slotsNext, slotsNextFrom, hm1.ne_point, hm0.ne_point, hs1.ne_point, hs0.ne_point]

/-! ### The host's loop (R100, R114) -/

/-- The payload words of a frame name its characters (R63). -/
theorem map_payloadChar_setWidth (f : List Byte) : (f.map (BitVec.setWidth 16)).map payloadChar = f := by
  rw [List.map_map]
  exact List.map_id'' payloadChar_setWidth f

/-- With no command in progress and no words to be taken, the host's thread makes its move (R114). -/
theorem step_of_host {s : State} {op : HostOp} {rest : List Input} (hin : s.inputs = .host op :: rest)
    (hb : s.busy = false) (hw : s.words = []) :
    step s = ({ s.boundary with inputs := rest } : State).hostMove op := by
  have free : s.boundary.hostBlocked = false := by simp [State.hostBlocked, hb, hw]
  simp [step, State.transition, State.react, hin, free]

theorem State.issueFrame_of_frame {s : State} {f : List Byte} (h : s.stopwatch.frame = some f) :
    s.issueFrame = .next (s.issue (encode (renderCommand f))) := by
  simp only [State.issueFrame, h]

theorem State.issueFrame_of_no_frame {s : State} (h : s.stopwatch.frame = none) :
    s.issueFrame = .refused .minutesOverflow := by
  simp only [State.issueFrame, h]

/-- A pass of the loop is one operation on the Stopwatch, and then the issue of its frame. -/
theorem State.hostMove_loop (s : State) (fired : Bool) (now : Rat) :
    s.hostMove (.loop fired now)
      = (s.onStopwatch fun w => (if fired then w.restart now else w).update now).issueFrame := by
  cases fired <;> rfl

/-- Settles O59: the host's move takes the frame of the Stopwatch reset, if the signal fired, and updated. -/
theorem hostLoopIssuesTheFrame : Obligations.HostLoopIssuesTheFrame := by
  intro s fired now rest hin hb hw w
  have hstep : step s = ({ s.boundary with inputs := rest, stopwatch := w } : State).issueFrame := by
    rw [step_of_host hin hb hw, State.hostMove_loop, State.onStopwatch, State.boundary_stopwatch]
  have nothingToTake : s.boundary.words = [] := s.boundary_words.trans hw
  refine ⟨fun f hf => ?_, fun hf => ?_⟩
  · rw [hstep, State.issueFrame_of_frame hf, State.issue, nothingToTake]
    rfl
  · rw [hstep, State.issueFrame_of_no_frame hf]

/-- Settles O60: a frame has at most five characters, which the encoding can express. -/
theorem issuedFrameIsReadBack : Obligations.IssuedFrameIsReadBack := by
  intro w f rest h
  obtain ⟨m1, m0, s1, s0, _, hf⟩ := Stopwatch.frame_cases h
  have short : f.length ≤ 5 := by rw [hf]; cases w.indicator <;> simp
  have fits : (renderCommand f).wellFormed = true := by
    simp [renderCommand, Instr.wellFormed, maxFrame]; omega
  exact ⟨decode_encode (by simp [renderCommand, Instr.header]) fits rest, map_payloadChar_setWidth f⟩

end Sys2Proof.Machine
end

section
/-! SUPPORT. The step that takes `cancel`: what it changes, and what the command it cuts short leaves behind (60_exceptions R124
to R127, 70_reset_and_hazards R154, R158). -/

namespace Sys2Proof.Machine

/-- The step that takes `cancel`, at any boundary and whatever the position (R124). -/
theorem step_of_cancel {s : State} {rest : List Input} (hin : s.inputs = .cancel :: rest) :
    step s = .next ({ s.boundary with inputs := rest } : State).takeCancel := by
  simp only [step, State.transition, State.react, State.boundary_inputs, hin]

section
variable {s : State}

/-- A second `cancel` has no effect (R126). -/
theorem takeCancel_of_cancelled (hc : s.cancelled = true) : s.takeCancel = s := if_pos hc

/-- The lines shut down as SHUTDOWN does it, and the command ends with ABORTED (R126). -/
theorem takeCancel_of_driven (hc : s.cancelled = false) (hd : s.driven = true) :
    s.takeCancel = State.ended 4
      { s with
        words := s.words.drop s.remain.toNat, vis := false, driven := false
        cancelled := true, events := s.events ++ [⟨.vis, false⟩] } := by
  have hrel : s.withdrawPayload.release = { s.withdrawPayload.drive .vis false with driven := false } := if_pos hd
  rw [State.takeCancel, if_neg (by simp [hc]), hrel]
  rfl

/-- Released lines are not written: the command ends with ABORTED (R126). -/
theorem takeCancel_of_released (hc : s.cancelled = false) (hd : s.driven = false) :
    s.takeCancel = State.ended 4 { s with words := s.words.drop s.remain.toNat, cancelled := true } := by
  have hrel : s.withdrawPayload.release = s.withdrawPayload := if_neg (by simp [hd])
  rw [State.takeCancel, if_neg (by simp [hc]), hrel]
  rfl

/-- After a first `cancel` the block is idle with its lines released (R158). -/
theorem takeCancel_final (hc : s.cancelled = false) : s.takeCancel.final := by
  cases hd : s.driven with
  | true => rw [takeCancel_of_driven hc hd]; exact ⟨rfl, rfl⟩
  | false => rw [takeCancel_of_released hc hd]; exact ⟨rfl, hd⟩

/-- Between the two writes of a latch pulse LATCH is high and the frame is published (R50, R58). -/
theorem State.Inv.latchLo (h : s.Inv) (hp : s.phase = .latchLo) : s.latch = true ∧ s.store = s.shift := by
  have hpos := h.position
  unfold State.positionLegal at hpos
  split at hpos <;> simp_all

end

/-- Settles O39: the cases of `takeCancel`; it ends in a final state, where every command but SHUTDOWN fails its first test. -/
theorem cancelShutsDownAtAnyBoundary : Obligations.CancelShutsDownAtAnyBoundary := by
  intro s rest hin b
  have hstep : step s = .next ({ b with inputs := rest } : State).takeCancel := step_of_cancel hin
  rw [hstep]
  refine ⟨fun hc => ?_, fun hc hd => ?_, fun hc hd => ?_, fun hc t ht i hi hne => ?_⟩
  all_goals replace hc := s.boundary_cancelled.trans hc
  · exact congrArg _ (takeCancel_of_cancelled hc)
  · rw [← s.boundary_words, ← s.boundary_remain, ← s.boundary_events]
    exact congrArg _ (takeCancel_of_driven hc (s.boundary_driven.trans hd))
  · rw [← s.boundary_words, ← s.boundary_remain]
    exact congrArg _ (takeCancel_of_released hc (s.boundary_driven.trans hd))
  · cases ht
    obtain ⟨hidle, hreleased⟩ := takeCancel_final (s := { b with inputs := rest }) hc
    rw [exec_of_released hidle hreleased hi, if_neg hne]

/-- Settles O40: a cancellation writes VIS alone, so the other lines and the chain are what the invariant says of the position
at which it is taken. -/
theorem cancelCutsTheCommandShort : Obligations.CancelCutsTheCommandShort := by
  intro s t rest hin hc h hd ht
  have ht : t = ({ s.boundary with inputs := rest } : State).takeCancel :=
    Host.Outcome.next.inj (ht.symm.trans (step_of_cancel hin))
  rw [takeCancel_of_driven (s := { s.boundary with inputs := rest }) (s.boundary_cancelled.trans hc)
    (s.boundary_driven.trans hd)] at ht
  have hlatch : t.latch = s.latch := ht ▸ s.boundary_latch
  have hsck : t.sck = s.sck := ht ▸ s.boundary_sck
  have hshift : t.shift = s.shift := by rw [ht]; exact s.boundary_shift.trans (if_pos hd)
  have hstore : t.store = s.store := by rw [ht]; exact s.boundary_store.trans (if_pos hd)
  refine ⟨hsck, ht ▸ s.boundary_data, hlatch, hshift, hstore, ht ▸ rfl, fun hp => ?_, fun hp => ?_, fun hp => ?_,
    ht ▸ ⟨rfl, rfl⟩⟩
  · have afterFirstWrite : s.phase ≠ .clkLow := by obtain hp | hp := hp <;> simp [hp]
    exact hsck.trans ((h.inCell (.inr hp)).2 afterFirstWrite)
  · rw [hlatch, hstore, hshift]
    exact h.latchLo hp
  · exact hlatch.trans (h.latch_eq_false hd hp)

end Sys2Proof.Machine
end

section
/-! SUPPORT. From a state that keeps the invariant everything the block does has a next state, and the host's thread stops only
for want of a frame (45_host-stopwatch R110, 60_exceptions R117, R129). -/

namespace Sys2Proof.Machine

/-! ### One micro-step, by phase -/

section
variable {s : State}

/-- LOOKUP with no payload word to wait for has a character: SEND_DIGIT's own, or the one held at the end of a frame. -/
theorem State.Inv.lookupStep_answers (h : s.Inv) (hp : s.phase = .lookup) (ha : s.awaiting = false) :
    ∃ t, s.lookupStep = .next t := by
  unfold State.lookupStep
  split
  next => split <;> exact ⟨_, rfl⟩
  next len hc =>
    obtain ⟨hb, _, _, hheld⟩ := h.render_lookup hp hc
    have hr : s.remain = 0 := by
      by_contra hr; simp [awaiting_intro hb hp hr hc] at ha
    exact ⟨_, if_pos (hheld hr)⟩
  next =>
    have hpos := h.position
    unfold State.positionLegal at hpos
    split at hpos <;> simp_all

/-- A bit cell belongs to SEND_DIGIT or to a RENDER. -/
theorem InCell.clkHighStep_answers (h : InCell s) : ∃ t, s.clkHighStep = .next t := by
  unfold State.clkHighStep
  split
  · obtain ⟨p, c, hc⟩ | ⟨⟨len, hc⟩, _⟩ := h.cmd <;> rw [hc] <;> exact ⟨_, rfl⟩
  · exact ⟨_, rfl⟩

/-- The write of VIS belongs to ENABLE, DISABLE or SHUTDOWN. -/
theorem State.Inv.oeStep_answers (h : s.Inv) (hp : s.phase = .oeWrite) : ∃ t, s.oeStep = .next t := by
  have hcmd : s.cmd = some .enable ∨ s.cmd = some .disable ∨ s.cmd = some .shutdown := by
    have hpos := h.position
    unfold State.positionLegal at hpos
    split at hpos <;> simp_all
  unfold State.oeStep
  obtain hc | hc | hc := hcmd <;> rw [hc] <;> exact ⟨_, rfl⟩

theorem State.Inv.microStep_answers (h : s.Inv) (ha : s.awaiting = false) : ∃ t, s.microStep = .next t := by
  unfold State.microStep
  split
  case h_3 hp => exact h.lookupStep_answers hp ha
  case h_6 hp => exact (h.inCell (.inr (.inr hp))).1.clkHighStep_answers
  case h_9 hp => exact h.oeStep_answers hp
  all_goals exact ⟨_, rfl⟩

/-! ### A cycle, a whole command, a move of the host -/

/-- A RENDER that waits takes any word, a busy block makes its micro-step, an idle block accepts any word or waits. -/
theorem State.Inv.clockCycle_answers (h : s.Inv) (v : Bool) : ∃ t, s.clockCycle v = .next t := by
  unfold State.clockCycle
  split
  next ha =>
    split
    next w rest _ => exact ⟨_, exec_charw_of_awaiting (s := { s with words := rest }) ha w⟩
    next => exact ⟨_, rfl⟩
  next ha =>
    split
    next => exact h.microStep_answers (by simpa using ha)
    next => split <;> exact ⟨_, rfl⟩

/-- An idle block executes whatever its words decode to; a busy one goes on cycle by cycle. -/
theorem State.Inv.operate_answers (h : s.Inv) : ∃ t, s.operate = .next t := by
  unfold State.operate
  split
  next => exact h.clockCycle_answers true
  next hb =>
    split
    next i rest _ => exact ⟨_, exec_of_idle (s := { s with words := rest }) (by simpa using hb) i⟩
    next => exact ⟨_, rfl⟩
    next => exact h.clockCycle_answers true
    all_goals exact ⟨_, rfl⟩

end

/-- The outcome is a next state, or the host's refusal at 100 minutes (R110). -/
def AnswersOrOverflows (o : Host.Outcome State Fault Refusal) : Prop := (∃ t, o = .next t) ∨ o = .refused .minutesOverflow

theorem issueFrame_answersOrOverflows (s : State) : AnswersOrOverflows s.issueFrame := by
  cases hf : s.stopwatch.frame with
  | none => exact .inr (State.issueFrame_of_no_frame hf)
  | some f => exact .inl ⟨_, State.issueFrame_of_frame hf⟩

/-- Of the host's moves only those that take the Stopwatch's frame can be refused. -/
theorem hostMove_answersOrOverflows (s : State) (op : HostOp) : AnswersOrOverflows (s.hostMove op) := by
  cases op with
  | renderFrame => exact issueFrame_answersOrOverflows s
  | loop fired now => exact issueFrame_answersOrOverflows _
  | construct | reset | update | issue | exit => exact .inl ⟨_, rfl⟩

/-- Whatever the world outside does at a boundary. -/
theorem State.Inv.react_answersOrOverflows {s : State} (h : s.Inv) : AnswersOrOverflows s.react := by
  have inv (rest : List Input) : ({ s with inputs := rest } : State).Inv := h.withOutside rest s.words s.stopwatch
  unfold State.react
  split
  next => exact .inl h.operate_answers
  next v rest _ => exact .inl ((inv rest).clockCycle_answers v)
  next => exact .inl ⟨_, rfl⟩
  next => exact .inl ⟨_, rfl⟩
  next => exact .inl ⟨_, rfl⟩
  next =>
    split
    · exact .inl h.operate_answers
    · exact hostMove_answersOrOverflows _ _

theorem State.Inv.step_answersOrOverflows {s : State} (h : s.Inv) : AnswersOrOverflows (step s) :=
  h.boundary.react_answersOrOverflows

/-- Settles O46: the boundary keeps the invariant, and under it each reaction answers or is the refusal of a frame. -/
theorem invariantStatesNeverFault : Obligations.InvariantStatesNeverFault := by
  intro s h
  obtain ⟨t, ht⟩ | hr := h.step_answersOrOverflows
  · exact ⟨fun f hf => by simp [ht] at hf, fun r hr => by simp [ht] at hr⟩
  · exact ⟨fun f hf => by simp [hr] at hf, fun r hr' => by simpa [hr, eq_comm] using hr'⟩

end Sys2Proof.Machine
end

section
/-! SUPPORT. Every micro-step leaves its phase, so that a cycle of a busy block that waits for no word advances the position
(10_state R20, 70_reset_and_hazards R157). -/

namespace Sys2Proof.Machine

section
variable {s t : State}

/-- A busy block is in none of the two phases between commands. -/
theorem State.Inv.phase_of_busy (h : s.Inv) (hb : s.busy = true) : s.phase ≠ .idle ∧ s.phase ≠ .done := by
  have hpos := h.position
  unfold State.positionLegal at hpos
  split at hpos <;> simp_all

/-- A busy block that waits for no word has its lines driven: with released lines it waits for payload to drop. -/
theorem State.Inv.driven_of_micro (h : s.Inv) (hb : s.busy = true) (ha : s.awaiting = false) : s.driven = true := by
  by_contra hd
  simp [h.awaiting_of_released (by simpa using hd) hb] at ha

/-- A RENDER ends in the `done` phase, whatever fails. -/
theorem failure_phase (s : State) : s.failure.phase = .done := by
  unfold State.failure
  split <;> rfl

/-- With no word to wait for, the lookup of a slot begins its first bit cell or ends the RENDER. -/
theorem beginSlot_phase_ne_lookup (hr : s.remain = 0) (c : Byte) (p : Bool) : (s.beginSlot c p).phase ≠ .lookup := by
  unfold State.beginSlot
  split
  · simp
  · rw [if_pos hr, failure_phase]
    simp

/-- After a slot comes another lookup or the latch pulse, no bit cell. -/
theorem nextSlot_phase_ne_clkHigh (s : State) : s.nextSlot.phase ≠ .clkHigh := by
  unfold State.nextSlot
  split <;> simp

/-- LOOKUP goes to the first bit cell, or ends the command. -/
theorem State.Inv.lookupStep_phase (h : s.Inv) (hp : s.phase = .lookup) (ha : s.awaiting = false)
    (hm : s.lookupStep = .next t) : t.phase ≠ .lookup := by
  unfold State.lookupStep at hm
  split at hm
  next => split at hm <;> cases hm <;> simp
  next len hc =>
    have hr : s.remain = 0 := by
      by_contra hr; simp [awaiting_intro (h.render_lookup hp hc).1 hp hr hc] at ha
    split at hm <;> cases hm
    exact beginSlot_phase_ne_lookup (s := { s with holdv := false }) hr _ _
  next => cases hm

/-- The last write of a bit cell goes to the next cell, the next slot, or the end of SEND_DIGIT. -/
theorem clkHighStep_phase (hm : s.clkHighStep = .next t) : t.phase ≠ .clkHigh := by
  unfold State.clkHighStep at hm
  split at hm
  · split at hm <;> cases hm
    · simp
    · exact nextSlot_phase_ne_clkHigh _
  · cases hm; simp

/-- The write of VIS ends the command. -/
theorem oeStep_phase (hm : s.oeStep = .next t) : t.phase = .done := by
  unfold State.oeStep at hm
  split at hm <;> cases hm <;> rfl

/-- Every micro-step of a busy block goes to another phase, so the position advances (R20). -/
theorem State.Inv.microStep_phase (h : s.Inv) (hb : s.busy = true) (ha : s.awaiting = false)
    (hm : s.microStep = .next t) : t.phase ≠ s.phase := by
  obtain ⟨hidle, hdone⟩ := h.phase_of_busy hb
  unfold State.microStep at hm
  cases hp : s.phase with
  | idle => exact absurd hp hidle
  | done => exact absurd hp hdone
  | lookup => rw [hp] at hm; exact h.lookupStep_phase hp ha hm
  | clkHigh => rw [hp] at hm; exact clkHighStep_phase hm
  | oeWrite => rw [hp] at hm; simp [oeStep_phase hm]
  | clkLow | setData | latchHi | latchLo => rw [hp] at hm; cases hm; simp [State.endRender]

/-- A cycle of a busy block that waits for no word is a micro-step, whether or not a word is presented (R72, R157). -/
theorem State.Inv.busy_cycle_advances {v : Bool} {rest : List Input} (h : s.Inv) (hb : s.busy = true)
    (ha : s.awaiting = false) (hin : s.inputs = .clock v :: rest) :
    ∃ t, step s = .next t ∧ t.position ≠ s.position := by
  have inv : ({ s with inputs := rest } : State).Inv := h.withOutside rest s.words s.stopwatch
  obtain ⟨t, ht⟩ := inv.microStep_answers ha
  have hstep : step s = .next t := by
    rw [step_of_clock (h.driven_of_micro hb ha) (h.phase_of_busy hb).2 hin,
      clockCycle_of_busy (s := { s with inputs := rest }) hb ha, ht]
  exact ⟨t, hstep, fun he => inv.microStep_phase hb ha ht (congrArg (fun q => q.2.2) he)⟩

end

end Sys2Proof.Machine
end

section
/-! SUPPORT. The cycles and the micro-steps of a whole command, its lines driven or released (41_render R91, R92,
70_reset_and_hazards R157). -/

namespace Sys2Proof.Machine

/-! ### Runs of cycles and their micro-steps -/

/-- The state with `n` cycles to come, a word presented in each. -/
def State.clocked (n : Nat) (s : State) : State := { s with inputs := List.replicate n (.clock true) }

/-- `n` cycles with a word presented in each end the command in progress: the block is idle with its `done` pulse, and `rest`
is what the host has still to present (R73). -/
def EndsIn (n : Nat) (rest : List Word) (s : State) : Prop :=
  ∃ t, core.run n (s.clocked n) = .next t ∧ t.busy = false ∧ t.phase = .done ∧ t.words = rest

section
variable {s t : State} {w : Word} {ws rest : List Word}

/-- A cycle after the boundary is a step. -/
theorem Cycle.step (h : Cycle s.boundary t) (n : Nat) : Machine.step (s.clocked (n + 1)) = .next (t.clocked n) := by
  simp only [Machine.step, State.transition, State.react, State.clocked, State.boundary_with_inputs, List.replicate_succ]
  exact h _

/-- The cycles to come leave the position alone. -/
theorem clocked_boundary_position (n : Nat) (s : State) : (s.clocked n).boundary.position = s.boundary.position := by
  rw [State.clocked, State.boundary_with_inputs]
  rfl

theorem EndsIn.now (hb : s.busy = false) (hp : s.phase = .done) (hw : s.words = rest) : EndsIn 0 rest s :=
  ⟨_, rfl, hb, hp, hw⟩

theorem EndsIn.after {n : Nat} (h : Cycle s.boundary t) (ends : EndsIn n rest t) : EndsIn (n + 1) rest s := by
  obtain ⟨u, hrun, hu⟩ := ends
  refine ⟨u, ?_, hu⟩
  simpa only [Host.Core.run, core, h.step] using hrun

/-- One cycle more is one micro-step more at most (R156). -/
theorem microSteps_after {n k : Nat} (h : Cycle s.boundary t) (hk : (t.clocked n).microSteps n ≤ k) :
    (s.clocked (n + 1)).microSteps (n + 1) ≤ k + 1 := by
  rw [microSteps_succ n (h.step n)]
  split <;> omega

/-- A cycle that leaves the position as it was is no micro-step (R20, R157). -/
theorem microSteps_after_wait {n k : Nat} (h : Cycle s.boundary t) (stays : t.position = s.boundary.position)
    (hk : (t.clocked n).microSteps n ≤ k) : (s.clocked (n + 1)).microSteps (n + 1) ≤ k := by
  have same : (t.clocked n).position = (s.clocked (n + 1)).boundary.position :=
    stays.trans (clocked_boundary_position (n + 1) s).symm
  rwa [microSteps_succ n (h.step n), if_pos same, Nat.zero_add]

/-- A cycle gives a RENDER that waits the word it waits for (R72). -/
theorem cycle_transfer (ha : s.awaiting = true) (hw : s.words = w :: ws) :
    Cycle s (({ s with words := ws } : State).transfer w) := by
  intro x
  have taken := clockCycle_of_awaiting (s := { s with inputs := x }) ha hw
  have moved := exec_charw_of_awaiting (s := { s with inputs := x, words := ws }) ha w
  exact (taken.trans moved).trans (congrArg _ (transfer_withInputs { s with words := ws } w x))

/-! ### With the lines released (R92, R99) -/

/-- `REMAIN` counts the payload still to come, at most 255 words (R23). -/
theorem ofNat_length_eq_zero_iff (hlen : ws.length ≤ 255) : BitVec.ofNat 8 ws.length = 0 ↔ ws = [] := by
  cases ws with
  | nil => exact iff_of_true rfl rfl
  | cons w ws => exact iff_of_false (ofNat_succ_sub_one ws.length hlen).1 (List.cons_ne_nil w ws)

/-- With its lines released a RENDER drops a word, and the last one ends it with RESOURCE_ERROR (R92, R99). -/
theorem transfer_of_released (hd : s.driven = false) (hdis : s.discard = true) (w : Word) :
    s.transfer w = if s.remain = 1 then s.complete .resourceError else { s with remain := s.remain - 1 } := by
  have failed : s.failure = s.complete .resourceError := if_neg (by simp [hd])
  rw [transfer_of_discard hdis, failed]

/-- With its lines released a RENDER drops its payload, one word a cycle, and ends with the last. -/
theorem State.Inv.drops_released (h : s.Inv) (hd : s.driven = false) (hb : s.busy = true)
    (hr : s.remain = BitVec.ofNat 8 ws.length) (hlen : ws.length ≤ 255) (hw : s.words = ws ++ rest) :
    EndsIn ws.length rest s := by
  induction ws generalizing s with
  | nil =>
    obtain ⟨_, _, hne, _⟩ := awaiting_elim (h.awaiting_of_released hd hb)
    exact absurd hr hne
  | cons w ws ih =>
    have released : s.boundary.driven = false := s.boundary_driven.trans hd
    have ha : s.boundary.awaiting = true := h.boundary.awaiting_of_released released (s.boundary_busy.trans hb)
    have hdis : s.boundary.discard = true := by
      obtain ⟨_, hp, _, _, hc⟩ := awaiting_elim ha
      exact (h.boundary.render_lookup hp hc).2.1 released
    have counted : s.boundary.remain - 1 = BitVec.ofNat 8 ws.length := by
      rw [s.boundary_remain, hr]
      exact (ofNat_succ_sub_one ws.length hlen).2
    have last : s.boundary.remain = 1 ↔ ws = [] := by
      rw [← ofNat_length_eq_zero_iff (Nat.le_of_succ_le hlen), ← counted]
      exact (sub_one_eq_zero _).symm
    have kept := State.Inv.transfer (h.boundary.withOutside s.boundary.inputs (ws ++ rest) s.boundary.stopwatch) ha w
    rw [transfer_of_released (by exact released) (by exact hdis)] at kept
    refine .after (cycle_transfer ha (s.boundary_words.trans hw)) ?_
    rw [transfer_of_released (by exact released) (by exact hdis)]
    by_cases hws : ws = []
    · subst hws
      rw [if_pos (by exact last.2 rfl)]
      exact .now rfl rfl rfl
    · rw [if_neg (by exact mt last.1 hws)] at kept ⊢
      exact ih kept released (s.boundary_busy.trans hb) counted (Nat.le_of_succ_le hlen) rfl

/-- After its acceptance with the lines released a command has ended, but for the payload of a RENDER. -/
theorem State.Inv.ends_accepted_released {i : Instr} {h : Header} (inv : s.Inv) (hb : s.busy = false)
    (hd : s.driven = false) (hi : i.header = some h) (hwf : i.wellFormed = true) (hw : s.words = i.payload ++ rest) :
    EndsIn i.payload.length rest (s.accept h) := by
  have failsTest : ¬ s.driven = true := by simp [hd]
  have stops (c : Code) (accepted : s.accept h = s.complete c) (hp : i.payload = []) :
      EndsIn i.payload.length rest (s.accept h) := by
    rw [hp] at hw ⊢
    rw [accepted]
    exact .now rfl rfl hw
  cases i with
  | render frame =>
    cases hi
    cases frame with
    | nil => exact stops .resourceError (if_neg failsTest) rfl
    | cons w ws =>
      have hlen : (w :: ws).length ≤ 255 := of_decide_eq_true hwf
      have accepted : s.accept (.render (BitVec.ofNat 8 (w :: ws).length))
          = { s.begun (.render (BitVec.ofNat 8 (w :: ws).length)) .lookup (BitVec.ofNat 8 (w :: ws).length) with
              discard := !s.driven } := if_neg (ofNat_succ_sub_one ws.length hlen).1
      have begun := inv.accept hb (.render (BitVec.ofNat 8 (w :: ws).length))
      rw [accepted] at begun ⊢
      exact begun.drops_released hd rfl rfl hlen hw
  | sendDigit | enable | disable => cases hi; exact stops .resourceError (if_neg failsTest) rfl
  | shutdown => cases hi; exact stops .ok (if_neg failsTest) rfl
  | charw => cases hi

/-- The acceptance of a command, the boundary before it included. -/
theorem cycle_accept_boundary {i : Instr} {h : Header} (hb : s.busy = false) (hi : i.header = some h)
    (hw : s.words = encode i ++ rest) :
    Cycle s.boundary (({ s.boundary with words := i.payload ++ rest } : State).accept h) :=
  cycle_accept (s.boundary_busy.trans hb) (by rw [State.boundary_words, hw, encode_of_header hi, List.cons_append])

/-- A cycle for every word of a command is within its bound of micro-steps. -/
theorem words_le_microStepBound (i : Instr) : i.payload.length + 1 ≤ i.microStepBound := by
  cases i with
  | render frame => simp only [Instr.payload, Instr.microStepBound]; omega
  | sendDigit | enable | disable | shutdown | charw => simp [Instr.payload, Instr.microStepBound]

/-- With the lines released every command ends, one cycle a word. -/
theorem State.Inv.ends_released {i : Instr} {h : Header} (inv : s.Inv) (hb : s.busy = false)
    (hd : s.driven = false) (hi : i.header = some h) (hwf : i.wellFormed = true) (hw : s.words = encode i ++ rest) :
    EndsIn (i.payload.length + 1) rest s := by
  have presented := inv.boundary.withOutside s.boundary.inputs (i.payload ++ rest) s.boundary.stopwatch
  exact .after (cycle_accept_boundary hb hi hw)
    (presented.ends_accepted_released (s.boundary_busy.trans hb) (s.boundary_driven.trans hd) hi hwf rfl)

/-! ### With the lines driven (R91) -/

/-- With the lines driven every command ends within its bound of cycles. -/
theorem State.Inv.ends_driven {i : Instr} (inv : s.Inv) (hb : s.busy = false) (hd : s.driven = true)
    (hin : s.inputs = []) (hi : i.header ≠ none) (hwf : i.wellFormed = true) (hw : s.words = encode i ++ rest) :
    ∃ n ≤ i.cycleBound s.cfg.pointVariant, EndsIn n rest s := by
  obtain ⟨n, t, hn, hexec, hrun⟩ := microStepLevelAgreesWithOperationLevel s i rest inv hb hd hin hwf hi hw
  rw [exec_of_idle (s := { s.boundary with words := rest }) (s.boundary_busy.trans hb)] at hexec
  cases hexec
  obtain ⟨hidle, hdone⟩ := perform_ends { s.boundary with words := rest } i
  exact ⟨n, hn, _, hrun, hidle, hdone, (Frame.perform _ i).words⟩

/-- Under `B_FOLD_PREV` the first payload word is held: the position stays at LOOKUP (R72, R85). -/
theorem first_word_held (hd : s.driven = true) (hv : s.cfg.pointVariant = .bFoldPrev)
    (hw : s.words = w :: ws) {len : Byte} (hlen : len ≠ 0) :
    ∃ t, Cycle (s.accept (.render len)).boundary t ∧ t.position = (s.accept (.render len)).boundary.position := by
  have accepted : s.accept (.render len) = { s.begun (.render len) s.phase len with phase := .lookup } := by
    rw [accept_render hd, nextSlot_eq_lookup _ (.inl hlen)]
  rw [accepted, boundary_eq_self _ (by exact hd) (by simp)]
  refine ⟨_, cycle_transfer (awaiting_intro rfl rfl hlen rfl) hw, ?_⟩
  rw [transfer_foldPrev_first (by rfl) w (by rfl) (by exact hv) (by rfl)]
  rfl

/-- A RENDER that holds its first word makes one micro-step less than it takes cycles. -/
theorem microSteps_foldPrev {n : Nat} (hb : s.busy = false) (hd : s.driven = true)
    (hv : s.cfg.pointVariant = .bFoldPrev) (hwf : (Instr.render (w :: ws)).wellFormed = true)
    (hw : s.words = encode (.render (w :: ws)) ++ rest) :
    (s.clocked (n + 2)).microSteps (n + 2) ≤ n + 1 := by
  have hlen : (w :: ws).length ≤ 255 := of_decide_eq_true hwf
  obtain ⟨t, held, stays⟩ := first_word_held (s := { s.boundary with words := w :: ws ++ rest })
    (s.boundary_driven.trans hd) ((congrArg _ s.boundary_cfg).trans hv) rfl (ofNat_succ_sub_one ws.length hlen).1
  exact microSteps_after (cycle_accept_boundary hb rfl hw) (microSteps_after_wait held stays (microSteps_le n _))

/-- Within its bound of cycles a command makes no more micro-steps than its bound of them. -/
theorem microSteps_le_bound {n : Nat} {i : Instr} (hb : s.busy = false) (hd : s.driven = true)
    (hwf : i.wellFormed = true) (hw : s.words = encode i ++ rest) (hn : n ≤ i.cycleBound s.cfg.pointVariant) :
    (s.clocked n).microSteps n ≤ i.microStepBound := by
  by_cases hheld : s.cfg.pointVariant = .bFoldPrev ∧ ∃ w ws, i = .render (w :: ws)
  · obtain ⟨hv, w, ws, rfl⟩ := hheld
    have hbound : n ≤ (Instr.render (w :: ws)).microStepBound + 1 := by
      rw [hv] at hn
      exact hn
    match n with
    | 0 => exact (microSteps_le 0 _).trans (Nat.zero_le _)
    | 1 => exact (microSteps_le 1 _).trans (microStepBound_pos _)
    | n + 2 => exact (microSteps_foldPrev hb hd hv hwf hw).trans (Nat.le_of_succ_le_succ hbound)
  · rw [cycleBound_eq _ _ fun hv w ws hi => hheld ⟨hv, w, ws, hi⟩] at hn
    exact (microSteps_le n _).trans hn

/-- Every command ends within its bound of cycles and its bound of micro-steps. -/
theorem State.Inv.ends {i : Instr} (inv : s.Inv) (hb : s.busy = false) (hin : s.inputs = []) (hi : i.header ≠ none)
    (hwf : i.wellFormed = true) (hw : s.words = encode i ++ rest) :
    ∃ n ≤ i.cycleBound s.cfg.pointVariant, EndsIn n rest s ∧ (s.clocked n).microSteps n ≤ i.microStepBound := by
  cases hd : s.driven with
  | true =>
    obtain ⟨n, hn, ends⟩ := inv.ends_driven hb hd hin hi hwf hw
    exact ⟨n, hn, ends, microSteps_le_bound hb hd hwf hw hn⟩
  | false =>
    obtain ⟨h, hh⟩ := Option.ne_none_iff_exists'.1 hi
    have hbound := words_le_microStepBound i
    exact ⟨_, hbound.trans (microStepBound_le_cycleBound _ i), inv.ends_released hb hd hh hwf hw,
      (microSteps_le _ _).trans hbound⟩

end

/-- Settles O54: with the lines driven the cycles are those of O53, with the lines released one for each word; and every
micro-step goes to another phase. -/
theorem commandsEndWithinTheirBounds : Obligations.CommandsEndWithinTheirBounds := by
  refine ⟨fun s i rest inv hb hin hwf hi hw => ?_, fun s v rest inv hb ha hin => inv.busy_cycle_advances hb ha hin⟩
  obtain ⟨n, hn, ⟨t, hrun, hidle, hdone, hrest⟩, hmicro⟩ := inv.ends hb hin hi hwf hw
  exact ⟨n, t, hn, hrun, hidle, hdone, hrest, hmicro⟩

end Sys2Proof.Machine
end
